-- ==== Sys2Proof/Word.lean ====
section
/-! DEFINITION. The word types: a byte of the console and of an image, and the 16-bit cell of memory and registers. -/

namespace Sys2Proof

/-- One byte: what the console ports and the serialised image carry (`20_memory.md` R56, `60_exceptions.md` R212). -/
abbrev Byte := BitVec 8

/-- The content of one memory cell or register: 16 bits (`00_scope.md` R5, CELL_BITS and REG_BITS). -/
abbrev Word := BitVec 16

/-- A Word in the spec's sense, a natural number in 0..32775 (`00_scope.md` R9); a cell of memory may hold more (C2). -/
abbrev IsWord (w : Word) : Prop := w.toNat ≤ 32775

end Sys2Proof
end

