-- ==== Sys2Proof/Syntax.lean ====
section
/-! DEFINITION. The instructions of `30_encoding.md` R77 as data, with their operands classified as R73 classifies operand
words. An operand word that is invalid when used (R73) is still part of an instruction: whether it is used, and which fault
it then raises, is the handler's affair (R82, R83), so it has a constructor of its own. -/

namespace Sys2Proof

/-- One operand word, by its class in `30_encoding.md` R73. -/
inductive Operand where
  /-- 0..32767: the value itself. -/
  | lit (v : BitVec 15)
  /-- 32768..32775: register w − 32768. -/
  | reg (r : Fin 8)
  /-- 32776..65535: a fault when used; the raw word is kept. -/
  | invalid (w : Word)
deriving DecidableEq, Repr

/-- One constructor per row of `opcode_table.json`, operands a, b, c in the table's order. `inp` is the row `in`, whose name
is a word of Lean. -/
inductive Instr where
  | halt
  | set (a b : Operand)
  | push (a : Operand)
  | pop (a : Operand)
  | eq (a b c : Operand)
  | gt (a b c : Operand)
  | jmp (a : Operand)
  | jt (a b : Operand)
  | jf (a b : Operand)
  | add (a b c : Operand)
  | mult (a b c : Operand)
  | mod (a b c : Operand)
  | and (a b c : Operand)
  | or (a b c : Operand)
  | not (a b : Operand)
  | rmem (a b : Operand)
  | wmem (a b : Operand)
  | call (a : Operand)
  | ret
  | out (a : Operand)
  | inp (a : Operand)
  | noop
deriving DecidableEq, Repr

namespace Instr

/-- The operands in order, 0 to 3 of them (`30_encoding.md` R70, R71). -/
def operands : Instr → List Operand
  | halt | ret | noop => []
  | push a | pop a | jmp a | call a | out a | inp a => [a]
  | set a b | jt a b | jf a b | not a b | rmem a b | wmem a b => [a, b]
  | eq a b c | gt a b c | add a b c | mult a b c | mod a b c | and a b c | or a b c => [a, b, c]

/-- The destination operand, for the opcodes that have one (`30_encoding.md` R76, R77): always operand a. The address operand
of `wmem` is no destination. -/
def dest : Instr → Option Operand
  | set a _ | pop a | eq a _ _ | gt a _ _ | add a _ _ | mult a _ _ | mod a _ _ | and a _ _ | or a _ _ | not a _ | rmem a _
  | inp a => some a
  | halt | push _ | jmp _ | jt _ _ | jf _ _ | wmem _ _ | call _ | ret | out _ | noop => none

/-- The register a destination operand names, the one register the instruction may write (`10_state.md` R23). -/
def destReg (i : Instr) : Option (Fin 8) :=
  match i.dest with
  | some (.reg r) => some r
  | _ => none

end Instr

end Sys2Proof
end

