-- ==== Sys2Proof/WellFormed.lean ====
section
/-! DEFINITION. Which instruction terms stand for words: every term but one whose `invalid` operand holds a word that
`30_encoding.md` R73 puts in another class. -/

namespace Sys2Proof

/-- An `invalid` operand holds a word of 32776..65535; the bounds of the other classes are in their types (R73). -/
def Operand.wf : Operand → Bool
  | .lit _ => true
  | .reg _ => true
  | .invalid w => 32775 < w.toNat

/-- Every operand is well formed. -/
def Instr.wf (i : Instr) : Bool := i.operands.all Operand.wf

end Sys2Proof
end

