-- ==== Sys2Proof/Decode.lean ====
section
/-! DEFINITION. The decoder and the encoder (`30_encoding.md` R70..R80, R87), the byte order of serialised words
(`20_memory.md` R56), and the host's table reader. -/

namespace Sys2Proof

/-! ### Byte order (`20_memory.md` R56) -/

/-- The low 8 bits, at byte 2k. -/
def lowByte (w : Word) : Byte := w.extractLsb' 0 8

/-- The high 8 bits, at byte 2k + 1. -/
def highByte (w : Word) : Byte := w.extractLsb' 8 8

/-- The word whose low byte is `lo` and whose high byte is `hi`. -/
def wordOfBytes (lo hi : Byte) : Word := hi ++ lo

/-- Words as little-endian bytes, in order (R56, R67). -/
def bytesOfWords : List Word → List Byte
  | [] => []
  | w :: ws => lowByte w :: highByte w :: bytesOfWords ws

/-- Little-endian bytes as words; `none` when a half word is left over. -/
def wordsOfBytes : List Byte → Option (List Word)
  | [] => some []
  | [_] => none
  | lo :: hi :: bs => (wordsOfBytes bs).map (wordOfBytes lo hi :: ·)

/-! ### Operand words (`30_encoding.md` R73) -/

/-- The class of a raw operand word. -/
def Operand.ofWord (w : Word) : Operand :=
  if w.toNat ≤ 32767 then .lit (w.setWidth 15)
  else if h : w.toNat ≤ 32775 then .reg ⟨w.toNat - 32768, by omega⟩
  else .invalid w

/-- `enc` of `30_encoding.md` R87: a literal is itself, register i is 32768 + i. -/
def Operand.toWord : Operand → Word
  | .lit v => v.setWidth 16
  | .reg r => BitVec.ofNat 16 (32768 + r.val)
  | .invalid w => w

/-! ### The opcode map (`30_encoding.md` R77) -/

/-- OPERAND_COUNT: how many operand words follow an opcode word; `none` for a raw word that is no opcode (R78, R80). -/
def operandCount (op : Nat) : Option Nat :=
  match op with
  | 0 | 18 | 21 => some 0
  | 2 | 3 | 6 | 17 | 19 | 20 => some 1
  | 1 | 7 | 8 | 14 | 15 | 16 => some 2
  | 4 | 5 | 9 | 10 | 11 | 12 | 13 => some 3
  | _ => none

/-- The instruction of an opcode and exactly its operands, in the order of R77; `none` for any other number of operands. -/
def Instr.ofOpcode (op : Nat) (args : List Operand) : Option Instr :=
  match op, args with
  | 0, [] => some .halt
  | 1, [a, b] => some (.set a b)
  | 2, [a] => some (.push a)
  | 3, [a] => some (.pop a)
  | 4, [a, b, c] => some (.eq a b c)
  | 5, [a, b, c] => some (.gt a b c)
  | 6, [a] => some (.jmp a)
  | 7, [a, b] => some (.jt a b)
  | 8, [a, b] => some (.jf a b)
  | 9, [a, b, c] => some (.add a b c)
  | 10, [a, b, c] => some (.mult a b c)
  | 11, [a, b, c] => some (.mod a b c)
  | 12, [a, b, c] => some (.and a b c)
  | 13, [a, b, c] => some (.or a b c)
  | 14, [a, b] => some (.not a b)
  | 15, [a, b] => some (.rmem a b)
  | 16, [a, b] => some (.wmem a b)
  | 17, [a] => some (.call a)
  | 18, [] => some .ret
  | 19, [a] => some (.out a)
  | 20, [a] => some (.inp a)
  | 21, [] => some .noop
  | _, _ => none

/-! ### The decoder -/

/-- Why words or bytes are no instruction. -/
inductive DecodeError where
  /-- There is no opcode word. -/
  | noOpcode
  /-- The raw opcode word is not in 0..21 (`30_encoding.md` R78, R79). -/
  | unknownOpcode (op : Word)
  /-- Fewer words follow than the opcode has operands (R80). -/
  | truncated (op : Word)
  /-- The bytes end in half a word. -/
  | halfWord
deriving DecidableEq, Repr

/-- The instruction at the head of a list of words, and the words after it (`30_encoding.md` R70, R78, R80). Total: every list
is an instruction or an error with a name. No operand is resolved or checked here (R82). -/
def decodeWords : List Word → Except DecodeError (Instr × List Word)
  | [] => .error .noOpcode
  | op :: ws =>
    match operandCount op.toNat with
    | none => .error (.unknownOpcode op)
    | some k =>
      if ws.length < k then .error (.truncated op)
      else
        match Instr.ofOpcode op.toNat ((ws.take k).map Operand.ofWord) with
        | some i => .ok (i, ws.drop k)
        | none => .error (.unknownOpcode op)

/-- The instruction at the head of a little-endian byte image (`20_memory.md` R67), and the words after it. -/
def decodeBytes (bs : List Byte) : Except DecodeError (Instr × List Word) :=
  match wordsOfBytes bs with
  | none => .error .halfWord
  | some ws => decodeWords ws

/-! ### The encoder (`30_encoding.md` R87) -/

/-- The opcode word of an instruction (R77). -/
def Instr.opcode : Instr → Word
  | .halt => 0
  | .set _ _ => 1
  | .push _ => 2
  | .pop _ => 3
  | .eq _ _ _ => 4
  | .gt _ _ _ => 5
  | .jmp _ => 6
  | .jt _ _ => 7
  | .jf _ _ => 8
  | .add _ _ _ => 9
  | .mult _ _ _ => 10
  | .mod _ _ _ => 11
  | .and _ _ _ => 12
  | .or _ _ _ => 13
  | .not _ _ => 14
  | .rmem _ _ => 15
  | .wmem _ _ => 16
  | .call _ => 17
  | .ret => 18
  | .out _ => 19
  | .inp _ => 20
  | .noop => 21

/-- The words of an instruction: opcode, then the operand words (R87). -/
def encode (i : Instr) : List Word := i.opcode :: i.operands.map Operand.toWord

/-- The image bytes of an instruction (R87). -/
def encodeBytes (i : Instr) : List Byte := bytesOfWords (encode i)

/-! ### The host's numbering of an instruction's bits -/

/-- The longest instruction, in words (`30_encoding.md` R70). -/
def longestInstr : Nat := 4

/-- The `n` words of a number, least significant first: bit 0 of the number is bit 0 of the first word. -/
def wordsOfNat : Nat → Nat → List Word
  | 0, _ => []
  | n + 1, w => BitVec.ofNat 16 (w % 65536) :: wordsOfNat n (w / 65536)

/-- The words of a table row's bits: the low `nbits` bits of `w`, every bit above them 0, up to the longest instruction. -/
def tableWords (nbits w : Nat) : List Word := wordsOfNat longestInstr (w % 2 ^ nbits)

/-- The instruction the decoder reads from a table row's bits, laid out as image bytes. -/
def decodeTableWord (nbits w : Nat) : Option Instr :=
  match decodeBytes (bytesOfWords (tableWords nbits w)) with
  | .ok (i, _) => some i
  | .error _ => none

end Sys2Proof
end

