-- ==== Sys2Proof/Config.lean ====
section
/-! DEFINITION. The parameters of `00_scope.md` R5 that the launch fixes. The other rows of R5 are single values, written
where they are used: 8 registers, literals to 32767, register references from 32768, Words to 32775, arithmetic modulo
32768, 22 opcodes, at most 32768 cells of memory. -/

namespace Sys2Proof

/-- What a launch fixes for the whole run; no step writes it. -/
structure Params where
  /-- SENTINEL: the byte that diverts `in` into the debug channel; OPEN, any byte (R5, D15). -/
  sentinel : Byte
  /-- STACK_LIMIT: the largest stack depth, `none` for unbounded (R5, D12). -/
  stackLimit : Option Nat
deriving DecidableEq, Repr

/-- The sentinel of `State.reset`: a FREE VALUE, since the spec gives none (R5, `91_not_in_source.md` 00-2). No body, so
nothing can be proved of it. DESIGN CHOICE, log entry 4. -/
opaque Config.sentinel : Byte

/-- The parameters of `State.reset`: the open sentinel, and the default STACK_LIMIT = none (R5). -/
def Config.resetParams : Params := { sentinel := Config.sentinel, stackLimit := none }

/-- DEFAULT_SNAPSHOT_NAME, "001" in ASCII (R5). -/
def Config.defaultSnapshotName : List Byte := [0x30, 0x30, 0x31]

end Sys2Proof
end

