-- ==== Sys2Proof/Machine/State.lean ====
section
/-! DEFINITION. The architectural state of `10_state.md` R20, the streams and files of the host that the core's ports meet
(`60_exceptions.md` R212, R213, R216), the state after reset (R40, R250), and the ways a step can stop. -/

namespace Sys2Proof.Machine

/-! ### The control state -/

/-- The run state (`10_state.md` R30). HALTED and FAULTED are terminal. -/
inductive RunState where
  /-- The core may step. -/
  | running
  /-- A normal end: `halt`, or `ret` on an empty stack. -/
  | halted
  /-- A fatal error was raised. -/
  | faulted
deriving DecidableEq, Repr

/-- The suspension state (`10_state.md` R31). -/
inductive Suspension where
  /-- Not suspended. -/
  | none
  /-- An `in` has taken the sentinel, and the debug channel has not yet handled one command line. -/
  | debug
deriving DecidableEq, Repr

/-- The kinds of fault (`60_exceptions.md` R200). A fault is an ordinary next state of the model, in which `run` is FAULTED. -/
inductive FaultKind where
  /-- The raw opcode word is not in 0..21. -/
  | invalidOpcode
  /-- A `val` operand word, or the word `rmem` read, is above 32775. -/
  | invalidOperand
  /-- A `dest` operand word is no register reference. -/
  | invalidDestination
  /-- `pop` on an empty stack. -/
  | stackUnderflow
  /-- The divisor of `mod` is 0. -/
  | divisionByZero
  /-- A fetch, `rmem` or `wmem` address is not below N. -/
  | outOfBounds
  /-- A push would exceed STACK_LIMIT. -/
  | stackOverflow
deriving DecidableEq, Repr

/-- The fault record (`10_state.md` R32, `60_exceptions.md` R201). -/
structure FaultRecord where
  kind : FaultKind
  /-- The address p of the failing instruction. -/
  pc : Nat
  /-- The raw opcode word, `none` when the opcode fetch itself failed. -/
  opcode : Option Word
deriving DecidableEq, Repr

/-! ### The word store -/

/-- The word store (`20_memory.md` R50): `size` is N, in words. Cell a is held as the bytes 2a (low) and 2a + 1 (high) of the
little-endian image (R56, R67). `bytes` lists the bytes that are not 0, addresses strictly rising; an unlisted byte below
2·N is 0. Log entry 2. -/
structure Memory where
  size : Nat
  bytes : List Host.Cell
deriving DecidableEq, Repr

/-- The word store of an image of no words. -/
def Memory.empty : Memory := { size := 0, bytes := [] }

/-! ### The host's side of the debug port -/

/-- A line of text, without its terminator. -/
abbrev Line := List Byte

/-- The artifacts that stand in the host's storage under one snapshot name (`60_exceptions.md` R216, R217): either may be
missing. -/
structure Artifact where
  name : Line
  /-- The lines of the text record (R224). -/
  record : Option (List Line)
  /-- The bytes of the memory dump (R225). -/
  dump : Option (List Byte)
deriving DecidableEq, Repr

/-- What the debug channel gives back to the operator: the listings of R219 and the reported errors of R206, R216, R218, R221.
Their text is not given, so they are held as data. Log entry 11. -/
inductive Report where
  /-- `barfreg`: the register contents, 0 to 7. -/
  | registers (contents : List Word)
  /-- `barfstack`: the stack contents, bottom to top. -/
  | stack (contents : List Word)
  /-- `load`: an artifact is missing. -/
  | snapshotNotFound
  /-- `load`: an artifact is malformed. -/
  | snapshotCorrupt
  /-- An unknown first token, or a line with no token. -/
  | unrecognizedCommand
  /-- `setreg` with an index outside 0..7. -/
  | indexOutOfRange
  /-- Missing or unparsable arguments, or a `setreg` value above 32775. -/
  | badArguments
  /-- `save`: the artifacts could not be written. -/
  | saveFailed
deriving DecidableEq, Repr

/-- The host's state that the debug channel reads or writes; no instruction does (`10_state.md` R41). -/
structure HostSide where
  /-- The artifacts in storage, at most one entry a name. -/
  files : List Artifact
  /-- What the operator was told, oldest first. -/
  reports : List Report
  /-- The flag of `logging on|off` (R220). -/
  logging : Bool
  /-- An input: whether storage refuses the next `save` (R216, D29). -/
  saveFails : Bool
deriving DecidableEq, Repr

/-! ### The state -/

/-- The state tuple of `10_state.md` R20, the launch's parameters, and the streams and files at the ports. -/
structure State where
  /-- R30. -/
  run : RunState
  /-- R31. -/
  susp : Suspension
  /-- R25, R27: a natural number, never wrapping. -/
  pc : Nat
  /-- R21, R22: reg0 to reg7. -/
  regs : Vector Word 8
  /-- R33: element 0 is the bottom, the last element the top. -/
  stack : List Word
  /-- `20_memory.md` R50: M and N. -/
  mem : Memory
  /-- R32. -/
  fault : Option FaultRecord
  /-- `00_scope.md` R5: SENTINEL and STACK_LIMIT. -/
  params : Params
  /-- `60_exceptions.md` R213: the bytes offered and not yet taken, oldest first. -/
  input : List Byte
  /-- `60_exceptions.md` R212: the bytes sent, oldest first. -/
  output : List Byte
  /-- The host's side of the debug port. -/
  host : HostSide
deriving DecidableEq, Repr

/-- The state right after VM construction with the word store `m` (`10_state.md` R40, `70_reset_and_hazards.md` R250). The
streams and the host's side start empty (log entries 6, 7, 10 to 13). -/
def State.construct (p : Params) (m : Memory) : State where
  run := .running
  susp := .none
  pc := 0
  regs := Vector.replicate 8 0
  stack := []
  mem := m
  fault := none
  params := p
  input := []
  output := []
  host := { files := [], reports := [], logging := false, saveFails := false }

/-- The reset state with no image (`70_reset_and_hazards.md` R253, first step of a launch). A program comes in through
`State.launch` or `State.launchSnapshot`. Log entry 3. -/
def State.reset : State := State.construct Config.resetParams Memory.empty

/-! ### How a step can stop -/

/-- Why the machine has no step. None of these is a fault of the spec (those are next states, `FaultKind`). -/
inductive Fault where
  /-- Raised by `step` on a HALTED core: no step exists (`60_exceptions.md` R204). Safe. -/
  | halted
  /-- Raised by `step` on a FAULTED core: no step exists (`60_exceptions.md` R204). Safe. -/
  | faulted
  /-- Raised by `in` with a valid destination and no byte offered: the core has no step until the host offers one
  (`60_exceptions.md` R213, D13). Safe. -/
  | waitingForInput
  /-- Raised by `step` in DEBUG while the input holds no byte 10: the core stays suspended (`60_exceptions.md` R215, D30).
  Safe. -/
  | waitingForCommandLine
deriving DecidableEq, Repr

/-- Refusals: only a launch is ever refused. -/
inductive Refusal where
  /-- An instruction that has no meaning in the model: raised by no arm. Safe. -/
  | notModelled (mnemonic : String)
  /-- Raised by `State.launch`: the image has an odd byte count (`20_memory.md` R67, D26), whatever its size (log entry 26).
  Safe. -/
  | oddImage
  /-- Raised by `State.launch`: the image has an even byte count and more than 32768 words (`20_memory.md` R67, D3). Safe. -/
  | imageTooLarge
  /-- Raised by `State.launchSnapshot`: an artifact is missing (`70_reset_and_hazards.md` R253, D24). Safe. -/
  | snapshotNotFound
  /-- Raised by `State.launchSnapshot`: an artifact is malformed (`70_reset_and_hazards.md` R253, D24). Safe. -/
  | snapshotCorrupt
deriving DecidableEq, Repr

end Sys2Proof.Machine
end

