-- ==== Sys2Proof/Machine/Ops.lean ====
section
/-! DEFINITION. The named operations over memory, registers, stack and ports, and taking a fault. There is no operation that
returns from a fault: the core has none (`60_exceptions.md` R204). -/

namespace Sys2Proof.Machine

/-! ### Memory as bytes in one canonical form -/

/-- What a byte list holds at a byte address; an unlisted address reads as 0. -/
def byteAt (a : Nat) : List Host.Cell → Byte
  | [] => 0
  | (b, v) :: cs => if a = b then v else byteAt a cs

/-- The byte list with `v` at byte address `a`, in canonical form: a 0 is not listed. -/
def setByteAt (a : Nat) (v : Byte) : List Host.Cell → List Host.Cell
  | [] => if v = 0 then [] else [(a, v)]
  | (b, w) :: cs =>
    if a < b then (if v = 0 then (b, w) :: cs else (a, v) :: (b, w) :: cs)
    else if a = b then (if v = 0 then cs else (a, v) :: cs)
    else (b, w) :: setByteAt a v cs

/-- The canonical byte list of consecutive bytes from address `a` on. -/
def cellsFrom (a : Nat) : List Byte → List Host.Cell
  | [] => []
  | v :: vs => if v = 0 then cellsFrom (a + 1) vs else (a, v) :: cellsFrom (a + 1) vs

/-- The bytes at `n` consecutive addresses from `a` on. -/
def bytesFrom (cs : List Host.Cell) (a : Nat) : Nat → List Byte
  | 0 => []
  | n + 1 => byteAt a cs :: bytesFrom cs (a + 1) n

/-- The canonical form: N is at most 32768 (`20_memory.md` R50), addresses strictly rise, every listed byte lies in the N cells
and is not the 0 an unlisted byte reads as. -/
abbrev Memory.wf (m : Memory) : Prop :=
  m.size ≤ 32768 ∧ m.bytes.Pairwise (fun c d => c.1 < d.1) ∧ ∀ c ∈ m.bytes, c.1 < 2 * m.size ∧ c.2 ≠ 0

/-- One byte of the serialised word store; `none` outside its 2·N bytes. -/
def Memory.byte (m : Memory) (a : Nat) : Option Byte :=
  if a < 2 * m.size then some (byteAt a m.bytes) else none

/-- MemRead (`20_memory.md` R53): the raw word of one cell, `none` where it raises OutOfBounds. -/
def Memory.read (m : Memory) (a : Nat) : Option Word :=
  if a < m.size then some (wordOfBytes (byteAt (2 * a) m.bytes) (byteAt (2 * a + 1) m.bytes)) else none

/-- Cell `a` set to `v`, with no bounds check. -/
def Memory.setCell (m : Memory) (a : Nat) (v : Word) : Memory :=
  { m with bytes := setByteAt (2 * a) (lowByte v) (setByteAt (2 * a + 1) (highByte v) m.bytes) }

/-- MemWrite (`20_memory.md` R54): `none` where it raises OutOfBounds, and nothing is written then. -/
def Memory.write (m : Memory) (a : Nat) (v : Word) : Option Memory :=
  if a < m.size then some (m.setCell a v) else none

/-- The word store of an image of an even number of bytes (`20_memory.md` R67). -/
def Memory.ofImage (bs : List Byte) : Memory := { size := bs.length / 2, bytes := cellsFrom 0 bs }

/-- The memory dump (`60_exceptions.md` R225): every cell as two little-endian bytes, in order. -/
def Memory.dump (m : Memory) : List Byte := bytesFrom m.bytes 0 (2 * m.size)

/-- The word store with consecutive cells from `a` on holding `ws`, no bounds check. -/
def Memory.setCells (m : Memory) (a : Nat) : List Word → Memory
  | [] => m
  | w :: ws => (m.setCell a w).setCells (a + 1) ws

namespace State

/-! ### Registers and program counter -/

/-- `x[r]` (`00_scope.md` R7). No register is hard-wired or banked (`10_state.md` R21). -/
def reg (s : State) (r : Fin 8) : Word := s.regs[r.val]

/-- `x[r] <- v` (`00_scope.md` R7). -/
def setReg (s : State) (r : Fin 8) (v : Word) : State := { s with regs := s.regs.set r.val v r.isLt }

/-- `pc <- t`: no range check and no wrap (`10_state.md` R27). -/
def setPc (s : State) (t : Nat) : State := { s with pc := t }

/-- `next` of an instruction with `k` operands, at whose opcode word `pc` stands (`30_encoding.md` R82). -/
def next (s : State) (k : Nat) : Nat := s.pc + 1 + k

/-- `pc <- next` (`10_state.md` R26). -/
def advance (s : State) (k : Nat) : State := s.setPc (s.next k)

/-! ### Stack (`10_state.md` R33) -/

/-- Whether a push would exceed STACK_LIMIT (`60_exceptions.md` R200, code 7). Log entry 5. -/
def stackFull (s : State) : Bool :=
  match s.params.stackLimit with
  | none => false
  | some limit => limit ≤ s.stack.length

/-- The stack set as a whole. -/
def setStack (s : State) (st : List Word) : State := { s with stack := st }

/-- Push(v), or the fault StackOverflow (`41_halt_set_stack.md` R102, `47_call_return.md` R170). -/
def push (s : State) (v : Word) : Except FaultKind State :=
  if s.stackFull then .error .stackOverflow else .ok (s.setStack (s.stack ++ [v]))

/-- Pop(): the top element and the state without it; `none` on an empty stack (`10_state.md` R34). -/
def popTop (s : State) : Option (Word × State) :=
  match s.stack.getLast? with
  | none => none
  | some v => some (v, s.setStack s.stack.dropLast)

/-! ### Memory -/

/-- The word store set as a whole. -/
def setMem (s : State) (m : Memory) : State := { s with mem := m }

/-- MemRead, or the fault OutOfBounds (`20_memory.md` R53). -/
def readMem (s : State) (a : Nat) : Except FaultKind Word :=
  match s.mem.read a with
  | some w => .ok w
  | none => .error .outOfBounds

/-- MemWrite, or the fault OutOfBounds (`20_memory.md` R54). -/
def writeMem (s : State) (a : Nat) (v : Word) : Except FaultKind State :=
  match s.mem.write a v with
  | some m => .ok (s.setMem m)
  | none => .error .outOfBounds

/-! ### Run state, suspension and ports -/

/-- `run <- HALTED`; pc stays (`41_halt_set_stack.md` R100, `47_call_return.md` R171). -/
def stop (s : State) : State := { s with run := .halted }

/-- `susp <- v` (`10_state.md` R31). -/
def setSusp (s : State) (v : Suspension) : State := { s with susp := v }

/-- ConsoleOut(b) (`60_exceptions.md` R212): never refused, never waits. -/
def emit (s : State) (b : Byte) : State := { s with output := s.output ++ [b] }

/-- The bytes still waiting at the console input port. -/
def setInput (s : State) (bs : List Byte) : State := { s with input := bs }

/-- The host's side of the debug port, set as a whole. -/
def setHost (s : State) (h : HostSide) : State := { s with host := h }

/-! ### Taking a fault -/

/-- `raise K` (`60_exceptions.md` R203): `run` becomes FAULTED and the record (kind, p, opcode) is written; nothing else
changes. `opcode` is `none` when the opcode fetch itself failed (R201). -/
def raise (s : State) (k : FaultKind) (opcode : Option Word) : State :=
  { s with run := .faulted, fault := some { kind := k, pc := s.pc, opcode := opcode } }

/-- The end of a handler (`30_encoding.md` R82, R84): the state it reached, or the fault it raised, taken in the state before
the instruction. -/
def finish (s : State) (opcode : Word) : Except FaultKind State → Host.Outcome State Fault Refusal
  | .ok t => .next t
  | .error k => .next (s.raise k (some opcode))

end State

end Sys2Proof.Machine
end

