-- ==== Sys2Proof/Machine/Text.lean ====
section
/-! DEFINITION. Lines, tokens and decimal numbers, as the debug channel's command line and the snapshot's text record use them
(`60_exceptions.md` R215, R217, R224), over ASCII bytes. -/

namespace Sys2Proof.Machine

/-- The bytes up to the first byte 10, and the bytes after it; `none` while there is no byte 10 (R215, D30). -/
def splitLine : List Byte → Option (Line × List Byte)
  | [] => none
  | b :: bs =>
    if b.toNat = 10 then some ([], bs)
    else match splitLine bs with
      | some (line, rest) => some (b :: line, rest)
      | none => none

/-- White space: tab, line feed, vertical tab, form feed, carriage return, space. PRESUMED, log entry 14. -/
def isSpace (b : Byte) : Bool := b.toNat == 32 || (9 ≤ b.toNat && b.toNat ≤ 13)

/-- A token in front of a list of tokens, dropped when it is empty. -/
def consToken (t : Line) (ts : List Line) : List Line := if t.isEmpty then ts else t :: ts

/-- The tokens of `cur ++ bs`, where `cur` is the token being read. -/
def tokensFrom (cur : Line) : List Byte → List Line
  | [] => consToken cur []
  | b :: bs => if isSpace b then consToken cur (tokensFrom [] bs) else tokensFrom (cur ++ [b]) bs

/-- The tokens of a line, separated by white space (R215). -/
def tokens (line : Line) : List Line := tokensFrom [] line

/-- The value of an ASCII digit. -/
def digitOf (b : Byte) : Option Nat := if 48 ≤ b.toNat ∧ b.toNat ≤ 57 then some (b.toNat - 48) else none

/-- Digits appended to the number read so far. -/
def decimalFrom (acc : Nat) : Line → Option Nat
  | [] => some acc
  | b :: bs =>
    match digitOf b with
    | some d => decimalFrom (10 * acc + d) bs
    | none => none

/-- A decimal natural number: one or more ASCII digits, nothing else. DESIGN CHOICE on signs and leading zeros, log entry 15. -/
def parseDecimal (t : Line) : Option Nat := if t.isEmpty then none else decimalFrom 0 t

/-- The ASCII digit of a number below 10. -/
def digitByte (n : Nat) : Byte := BitVec.ofNat 8 (48 + n)

/-- The digits of a number, most significant first; the fuel exceeds the number of digits. -/
def digitsOf : Nat → Nat → Line
  | 0, _ => []
  | fuel + 1, n => if n < 10 then [digitByte n] else digitsOf fuel (n / 10) ++ [digitByte (n % 10)]

/-- A natural number in decimal. -/
def printDecimal (n : Nat) : Line := digitsOf (n + 1) n

/-- A Word in decimal: 0..32775 (R217, R218). -/
def parseWord (t : Line) : Option Word :=
  match parseDecimal t with
  | some n => if n ≤ 32775 then some (BitVec.ofNat 16 n) else none
  | none => none

/-- Lines that are all Words in decimal. -/
def parseWords : List Line → Option (List Word)
  | [] => some []
  | l :: ls =>
    match parseWord l, parseWords ls with
    | some w, some ws => some (w :: ws)
    | _, _ => none

end Sys2Proof.Machine
end

