-- ==== Sys2Proof/Machine/Snapshot.lean ====
section
/-! DEFINITION. Snapshots: the text record and the memory dump, written and read back (`60_exceptions.md` R216, R217, R224,
R225). -/

namespace Sys2Proof.Machine

/-- The four components a snapshot holds (`10_state.md` R20). -/
structure Snapshot where
  pc : Nat
  regs : Vector Word 8
  stack : List Word
  mem : Memory
deriving DecidableEq, Repr

/-- Why a snapshot is not restored (R217). -/
inductive SnapshotError where
  /-- An artifact is missing. -/
  | notFound
  /-- An artifact is malformed. -/
  | corrupt
deriving DecidableEq, Repr

/-- The lines of the text record (R224): pc, registers 0 to 7, the stack bottom to top, each in decimal. -/
def recordLines (s : State) : List Line :=
  printDecimal s.pc :: (s.regs.toList ++ s.stack).map fun w => printDecimal w.toNat

/-- The artifacts that `save` writes under a name (R216). -/
def artifactOf (name : Line) (s : State) : Artifact :=
  { name := name, record := some (recordLines s), dump := some s.mem.dump }

/-- The text record read back: a decimal pc, exactly 8 register lines, then the stack lines (R217, R224). -/
def parseRecord (lines : List Line) (m : Memory) : Option Snapshot :=
  match lines with
  | [] => none
  | l :: ls =>
    match parseDecimal l, parseWords (ls.take 8), parseWords (ls.drop 8) with
    | some p, some rs, some st =>
      if h : rs.length = 8 then some { pc := p, regs := ⟨rs.toArray, by simpa using h⟩, stack := st, mem := m } else none
    | _, _, _ => none

/-- The memory dump read back: an even byte count, at most 32768 words (R217, R225). -/
def parseDump (bs : List Byte) : Option Memory :=
  if bs.length % 2 = 0 ∧ bs.length ≤ 65536 then some (Memory.ofImage bs) else none

/-- One name's artifacts read completely, before anything is set (R217). -/
def parseArtifact (a : Artifact) : Except SnapshotError Snapshot :=
  match a.record, a.dump with
  | some lines, some bs =>
    match parseDump bs with
    | none => .error .corrupt
    | some m =>
      match parseRecord lines m with
      | some x => .ok x
      | none => .error .corrupt
  | _, _ => .error .notFound

/-- The snapshot that stands under a name (R217). -/
def readSnapshot (files : List Artifact) (name : Line) : Except SnapshotError Snapshot :=
  match files.find? (fun a => a.name = name) with
  | some a => parseArtifact a
  | none => .error .notFound

/-- Storage with one name's artifacts written, replacing what stood under that name. -/
def storeArtifact (files : List Artifact) (a : Artifact) : List Artifact :=
  a :: files.filter fun b => b.name ≠ a.name

/-- pc, x, stack, M and N replaced in one action (R217). -/
def State.restore (s : State) (x : Snapshot) : State :=
  { s with pc := x.pc, regs := x.regs, stack := x.stack, mem := x.mem }

end Sys2Proof.Machine
end

