-- ==== Sys2Proof/Machine/Debug.lean ====
section
/-! DEFINITION. The debug channel: one command line while `susp = DEBUG` (`60_exceptions.md` R215 to R223). -/

namespace Sys2Proof.Machine

/-! ### Command names, in ASCII -/

/-- `save`. -/
def nameSave : Line := [0x73, 0x61, 0x76, 0x65]

/-- `load`. -/
def nameLoad : Line := [0x6c, 0x6f, 0x61, 0x64]

/-- `setreg`. -/
def nameSetreg : Line := [0x73, 0x65, 0x74, 0x72, 0x65, 0x67]

/-- `barfreg`. -/
def nameBarfreg : Line := [0x62, 0x61, 0x72, 0x66, 0x72, 0x65, 0x67]

/-- `barfstack`. -/
def nameBarfstack : Line := [0x62, 0x61, 0x72, 0x66, 0x73, 0x74, 0x61, 0x63, 0x6b]

/-- `logging`. -/
def nameLogging : Line := [0x6c, 0x6f, 0x67, 0x67, 0x69, 0x6e, 0x67]

/-- `on`. -/
def nameOn : Line := [0x6f, 0x6e]

/-- `off`. -/
def nameOff : Line := [0x6f, 0x66, 0x66]

/-! ### Commands -/

/-- A command line, read. -/
inductive Command where
  /-- R216. -/
  | save (name : Line)
  /-- R217. -/
  | load (name : Line)
  /-- R218, with both arguments decimal. -/
  | setreg (index value : Nat)
  /-- R219. -/
  | barfreg
  /-- R219. -/
  | barfstack
  /-- R220. -/
  | logging (on : Bool)
  /-- A known first token with missing or unparsable arguments (R218, D21). -/
  | badArguments
  /-- An unknown first token, or an empty line (R221, D30); a line of white space only is the model's choice, log entry 25. -/
  | unrecognized
deriving DecidableEq, Repr

/-- The arguments of `setreg` (R218). -/
def setregCommand : List Line → Command
  | i :: v :: _ =>
    match parseDecimal i, parseDecimal v with
    | some index, some value => .setreg index value
    | _, _ => .badArguments
  | _ => .badArguments

/-- The argument of `logging` (R220). -/
def loggingCommand : List Line → Command
  | t :: _ => if t = nameOn then .logging true else if t = nameOff then .logging false else .badArguments
  | [] => .badArguments

/-- `<command> [args...]`, with case-sensitive names (R215). A line with no token is unrecognised: the empty line by R221 (D30), a
line of white space only by the model's choice (log entry 25). Tokens past a command's arguments are not looked at (log entry
16). -/
def parseCommand (line : Line) : Command :=
  match tokens line with
  | [] => .unrecognized
  | name :: args =>
    if name = nameSave then .save (args.headD Config.defaultSnapshotName)
    else if name = nameLoad then .load (args.headD Config.defaultSnapshotName)
    else if name = nameSetreg then setregCommand args
    else if name = nameBarfreg then .barfreg
    else if name = nameBarfstack then .barfstack
    else if name = nameLogging then loggingCommand args
    else .unrecognized

/-! ### What a command does -/

/-- One more report to the operator. -/
def State.report (s : State) (r : Report) : State := s.setHost { s.host with reports := s.host.reports ++ [r] }

/-- `save` (R216): the core is unchanged; a failure is reported (D29). -/
def cmdSave (name : Line) (s : State) : State :=
  if s.host.saveFails then s.report .saveFailed
  else s.setHost { s.host with files := storeArtifact s.host.files (artifactOf name s) }

/-- `load` (R217): all of the snapshot, or an error report and no change. -/
def cmdLoad (name : Line) (s : State) : State :=
  match readSnapshot s.host.files name with
  | .ok x => s.restore x
  | .error .notFound => s.report .snapshotNotFound
  | .error .corrupt => s.report .snapshotCorrupt

/-- `setreg` (R218): the register, or an error report and no change. -/
def cmdSetreg (index value : Nat) (s : State) : State :=
  if h : index < 8 then
    if value ≤ 32775 then s.setReg ⟨index, h⟩ (BitVec.ofNat 16 value) else s.report .badArguments
  else s.report .indexOutOfRange

/-- The effect of a command (R216 to R221). -/
def runCommand (c : Command) (s : State) : State :=
  match c with
  | .save name => cmdSave name s
  | .load name => cmdLoad name s
  | .setreg index value => cmdSetreg index value s
  | .barfreg => s.report (.registers s.regs.toList)
  | .barfstack => s.report (.stack s.stack)
  | .logging on => s.setHost { s.host with logging := on }
  | .badArguments => s.report .badArguments
  | .unrecognized => s.report .unrecognizedCommand

/-- The channel (R215, R222): it takes one line, handles exactly one command, and leaves; with no line's end in the input the
core stays suspended. -/
def debugStep (s : State) : Host.Outcome State Fault Refusal :=
  match splitLine s.input with
  | none => .fault .waitingForCommandLine
  | some (line, rest) => .next ((runCommand (parseCommand line) (s.setInput rest)).setSusp .none)

end Sys2Proof.Machine
end

