-- ==== Sys2Proof/Machine/Operands.lean ====
section
/-! DEFINITION. The operand resolver's two modes (`30_encoding.md` R74, R75), and the shapes of handler that several
instructions share. -/

namespace Sys2Proof.Machine

namespace State

/-- Resolve(w) (`30_encoding.md` R74): a literal is itself, a register reference is the register's content, not resolved a
second time; an invalid word raises InvalidOperand. -/
def resolve (s : State) : Operand → Except FaultKind Word
  | .lit v => .ok (v.setWidth 16)
  | .reg r => .ok (s.reg r)
  | .invalid _ => .error .invalidOperand

end State

/-- Dest(w) (`30_encoding.md` R75): the register index; any other word raises InvalidDestination. -/
def destination : Operand → Except FaultKind (Fin 8)
  | .reg r => .ok r
  | .lit _ => .error .invalidDestination
  | .invalid _ => .error .invalidDestination

namespace State

/-- The handler of an `op a, b` that writes a register: Dest(a), Resolve(b), the instruction's own result or fault, then the
write and `pc <- next` (`30_encoding.md` R83, items 4 to 6). -/
def writeUnary (s : State) (a b : Operand) (f : Word → Except FaultKind Word) : Except FaultKind State := do
  let d ← destination a
  let vb ← s.resolve b
  let v ← f vb
  return (s.setReg d v).advance 2

/-- The handler of an `op a, b, c` that writes a register: Dest(a), Resolve(b), Resolve(c), the instruction's own result or
fault, then the write and `pc <- next` (`30_encoding.md` R83, items 4 to 6). -/
def writeBinary (s : State) (a b c : Operand) (f : Word → Word → Except FaultKind Word) : Except FaultKind State := do
  let d ← destination a
  let vb ← s.resolve b
  let vc ← s.resolve c
  let v ← f vb vc
  return (s.setReg d v).advance 3

/-- The handler of a jump on a condition: Resolve(a), and Resolve(b) only when the jump is taken (`43_jump.md` R131, R132,
D9). -/
def jumpIf (s : State) (taken : Word → Bool) (a b : Operand) : Except FaultKind State := do
  let v ← s.resolve a
  if taken v then
    let t ← s.resolve b
    return s.setPc t.toNat
  else
    return s.advance 2

end State

end Sys2Proof.Machine
end

