-- ==== Sys2Proof/Machine/Flags.lean ====
section
/-! DEFINITION. The core has no flags, condition codes or predicate registers (`10_state.md` R29). What stands in their place:
the 0 or 1 that a comparison writes to a register, and the conditions a jump tests. -/

namespace Sys2Proof.Machine

/-- The result of a comparison: exactly 0 or 1 (`42_compare.md` R120). -/
def truthWord (p : Bool) : Word := if p then 1 else 0

/-- `vb = vc` on the full values (`42_compare.md` R120, D25). -/
def eqWord (vb vc : Word) : Word := truthWord (vb.toNat == vc.toNat)

/-- `vb > vc`, an unsigned comparison of naturals (`42_compare.md` R121). -/
def gtWord (vb vc : Word) : Word := truthWord (vc.toNat < vb.toNat)

/-- The condition of `jt`: any value but 0 (`43_jump.md` R131). -/
def condTrue (v : Word) : Bool := v.toNat != 0

/-- The condition of `jf`: only 0 (`43_jump.md` R132). -/
def condFalse (v : Word) : Bool := v.toNat == 0

end Sys2Proof.Machine
end

