-- ==== Sys2Proof/Machine/Alu.lean ====
section
/-! DEFINITION. `eq`, `gt`, `add`, `mult`, `mod`, `and`, `or`, `not` (`42_compare.md`, `44_arithmetic.md`, `45_logic.md`). -/

namespace Sys2Proof.Machine

/-! ### The results -/

/-- The exact sum, reduced modulo 32768 (R140, R143). -/
def addWord (vb vc : Word) : Word := BitVec.ofNat 16 ((vb.toNat + vc.toNat) % 32768)

/-- The exact product, reduced modulo 32768 (R141, R143). -/
def multWord (vb vc : Word) : Word := BitVec.ofNat 16 ((vb.toNat * vc.toNat) % 32768)

/-- The natural remainder, or the fault DivisionByZero (R142). -/
def modWord (vb vc : Word) : Except FaultKind Word :=
  if vc.toNat = 0 then .error .divisionByZero else .ok (BitVec.ofNat 16 (vb.toNat % vc.toNat))

/-- AND, masked to bits [14:0] (R150, R153). -/
def andWord (vb vc : Word) : Word := (vb &&& vc) &&& 0x7FFF

/-- OR, masked to bits [14:0] (R151, R153). -/
def orWord (vb vc : Word) : Word := (vb ||| vc) &&& 0x7FFF

/-- Complement, masked to bits [14:0] (R152, R153). -/
def notWord (vb : Word) : Word := (~~~vb) &&& 0x7FFF

/-! ### The meanings -/

/-- `eq a, b, c` (R120). -/
def execEq (a b c : Operand) (s : State) : Host.Outcome State Fault Refusal :=
  s.finish 4 (s.writeBinary a b c fun vb vc => .ok (eqWord vb vc))

/-- `gt a, b, c` (R121). -/
def execGt (a b c : Operand) (s : State) : Host.Outcome State Fault Refusal :=
  s.finish 5 (s.writeBinary a b c fun vb vc => .ok (gtWord vb vc))

/-- `add a, b, c` (R140). -/
def execAdd (a b c : Operand) (s : State) : Host.Outcome State Fault Refusal :=
  s.finish 9 (s.writeBinary a b c fun vb vc => .ok (addWord vb vc))

/-- `mult a, b, c` (R141). -/
def execMult (a b c : Operand) (s : State) : Host.Outcome State Fault Refusal :=
  s.finish 10 (s.writeBinary a b c fun vb vc => .ok (multWord vb vc))

/-- `mod a, b, c` (R142). -/
def execMod (a b c : Operand) (s : State) : Host.Outcome State Fault Refusal :=
  s.finish 11 (s.writeBinary a b c modWord)

/-- `and a, b, c` (R150). -/
def execAnd (a b c : Operand) (s : State) : Host.Outcome State Fault Refusal :=
  s.finish 12 (s.writeBinary a b c fun vb vc => .ok (andWord vb vc))

/-- `or a, b, c` (R151). -/
def execOr (a b c : Operand) (s : State) : Host.Outcome State Fault Refusal :=
  s.finish 13 (s.writeBinary a b c fun vb vc => .ok (orWord vb vc))

/-- `not a, b` (R152). -/
def execNot (a b : Operand) (s : State) : Host.Outcome State Fault Refusal :=
  s.finish 14 (s.writeUnary a b fun vb => .ok (notWord vb))

end Sys2Proof.Machine
end

