-- ==== Sys2Proof/Machine/Console.lean ====
section
/-! DEFINITION. `out`, `in` (`48_io_noop.md`). -/

namespace Sys2Proof.Machine

/-- The character code `out` sends: the value modulo 256 (R180). -/
def charOf (v : Word) : Byte := BitVec.ofNat 8 (v.toNat % 256)

/-- `out a` (R180). -/
def execOut (a : Operand) (s : State) : Host.Outcome State Fault Refusal :=
  s.finish 19 do
    let v ← s.resolve a
    return (s.emit (charOf v)).advance 1

/-- `in a` (R181): the destination is checked before a byte is taken (D17); with no byte offered there is no step (R213); the
sentinel is consumed and suspends the core, pc and registers untouched (`60_exceptions.md` R214). -/
def execInp (a : Operand) (s : State) : Host.Outcome State Fault Refusal :=
  match destination a with
  | .error k => s.finish 20 (.error k)
  | .ok d =>
    match s.input with
    | [] => .fault .waitingForInput
    | c :: rest =>
      if c = s.params.sentinel then .next ((s.setInput rest).setSusp .debug)
      else .next (((s.setInput rest).setReg d (c.setWidth 16)).advance 1)

end Sys2Proof.Machine
end

