-- ==== Sys2Proof/Machine/Control.lean ====
section
/-! DEFINITION. `halt`, `set`, `push`, `pop`, `jmp`, `jt`, `jf`, `call`, `ret`, `noop` (`41_halt_set_stack.md`, `43_jump.md`,
`47_call_return.md`, `48_io_noop.md` R182). -/

namespace Sys2Proof.Machine

/-- `halt` (R100): `run <- HALTED`, pc stays. -/
def execHalt (s : State) : Host.Outcome State Fault Refusal := .next s.stop

/-- `set a, b` (R101). -/
def execSet (a b : Operand) (s : State) : Host.Outcome State Fault Refusal :=
  s.finish 1 (s.writeUnary a b fun vb => .ok vb)

/-- `push a` (R102): the operand resolves before the stack's limit is looked at. -/
def execPush (a : Operand) (s : State) : Host.Outcome State Fault Refusal :=
  s.finish 2 do
    let v ← s.resolve a
    let t ← s.push v
    return t.advance 1

/-- `pop a` (R103): the destination is checked before the stack. -/
def execPop (a : Operand) (s : State) : Host.Outcome State Fault Refusal :=
  s.finish 3 do
    let d ← destination a
    match s.popTop with
    | none => .error .stackUnderflow
    | some (v, t) => return (t.setReg d v).advance 1

/-- `jmp a` (R130). -/
def execJmp (a : Operand) (s : State) : Host.Outcome State Fault Refusal :=
  s.finish 6 do
    let t ← s.resolve a
    return s.setPc t.toNat

/-- `jt a, b` (R131). -/
def execJt (a b : Operand) (s : State) : Host.Outcome State Fault Refusal := s.finish 7 (s.jumpIf condTrue a b)

/-- `jf a, b` (R132). -/
def execJf (a b : Operand) (s : State) : Host.Outcome State Fault Refusal := s.finish 8 (s.jumpIf condFalse a b)

/-- `call a` (R170): the target resolves before the push of `next`, which is p + 2. -/
def execCall (a : Operand) (s : State) : Host.Outcome State Fault Refusal :=
  s.finish 17 do
    let t ← s.resolve a
    let u ← s.push (BitVec.ofNat 16 (s.next 1))
    return u.setPc t.toNat

/-- `ret` (R171): an empty stack is normal termination, with pc staying. -/
def execRet (s : State) : Host.Outcome State Fault Refusal :=
  match s.popTop with
  | none => .next s.stop
  | some (t, u) => .next (u.setPc t.toNat)

/-- `noop` (R182). -/
def execNoop (s : State) : Host.Outcome State Fault Refusal := .next (s.advance 0)

end Sys2Proof.Machine
end

