-- ==== Sys2Proof/Machine/MemAccess.lean ====
section
/-! DEFINITION. `rmem`, `wmem` (`46_memory_access.md`). -/

namespace Sys2Proof.Machine

/-- What `rmem` brings from an address (R160): the raw word, not resolved; OutOfBounds outside memory, InvalidOperand for a
word above 32775 (D5). -/
def loadWord (s : State) (addr : Word) : Except FaultKind Word := do
  let m ← s.readMem addr.toNat
  if 32775 < m.toNat then .error .invalidOperand else .ok m

/-- `rmem a, b` (R160). -/
def execRmem (a b : Operand) (s : State) : Host.Outcome State Fault Refusal :=
  s.finish 15 (s.writeUnary a b (loadWord s))

/-- `wmem a, b` (R161): both operands resolve before the bounds check. -/
def execWmem (a b : Operand) (s : State) : Host.Outcome State Fault Refusal :=
  s.finish 16 do
    let addr ← s.resolve a
    let v ← s.resolve b
    let t ← s.writeMem addr.toNat v
    return t.advance 2

end Sys2Proof.Machine
end

