-- ==== Sys2Proof/Machine/Fetch.lean ====
section
/-! DEFINITION. Fetch and decode at the program counter (`30_encoding.md` R82, R83 items 1 to 3), and laying words down where
the next fetch reads them. -/

namespace Sys2Proof.Machine

/-- `k` consecutive one-word reads from address `a` on; `none` when one of them is out of bounds. -/
def fetchWords (m : Memory) (a : Nat) : Nat → Option (List Word)
  | 0 => some []
  | k + 1 =>
    match m.read a with
    | none => none
    | some w => (fetchWords m (a + 1) k).map (w :: ·)

/-- The instruction at pc, or the fetch's fault with the opcode word to record: OutOfBounds on the opcode fetch (no opcode),
InvalidOpcode, OutOfBounds on an operand fetch. Every operand word is fetched before the handler looks at any (D7). The last
arm is never reached (`Laws.fetch_reaches_decode`). -/
def fetch (s : State) : Except (FaultKind × Option Word) Instr :=
  match s.mem.read s.pc with
  | none => .error (.outOfBounds, none)
  | some op =>
    match operandCount op.toNat with
    | none => .error (.invalidOpcode, some op)
    | some k =>
      match fetchWords s.mem (s.pc + 1) k with
      | none => .error (.outOfBounds, some op)
      | some ws =>
        match decodeWords (op :: ws) with
        | .ok (i, _) => .ok i
        | .error _ => .error (.invalidOpcode, some op)

/-- The words laid down at pc, with N raised to cover them and the core able to step. At a pc too high for `ws.length` cells
below 32768 the program counter is taken to 0 (log entry 19). -/
def placeAtPc (s : State) (ws : List Word) : State :=
  let p := if s.pc + ws.length ≤ 32768 then s.pc else 0
  { s with
    run := .running
    susp := .none
    pc := p
    mem := Memory.setCells { s.mem with size := max s.mem.size (p + ws.length) } p ws }

end Sys2Proof.Machine
end

