-- ==== Sys2Proof/Machine/Step.lean ====
section
/-! DEFINITION. One step (`30_encoding.md` R82; in DEBUG, `60_exceptions.md` R215 to R223). -/

namespace Sys2Proof.Machine

/-- HALTED and FAULTED have no step (`60_exceptions.md` R204). While suspended the core executes no instruction and the debug
channel handles one command line (R223). Otherwise one whole instruction is fetched and executed, or the fetch's fault is
taken (`30_encoding.md` R82). -/
def step (s : State) : Host.Outcome State Fault Refusal :=
  match s.run with
  | .halted => .fault .halted
  | .faulted => .fault .faulted
  | .running =>
    match s.susp with
    | .debug => debugStep s
    | .none =>
      match fetch s with
      | .ok i => exec i s
      | .error (k, op) => .next (s.raise k op)

/-- The state with an opcode-table row's bits laid down where `step` fetches next. -/
def State.withFetchWord (s : State) (nbits w : Nat) : State := placeAtPc s (tableWords nbits w)

end Sys2Proof.Machine
end

