-- ==== Sys2Proof/Machine/HostPort.lean ====
section
/-! DEFINITION. What the host does to the core outside an instruction (`60_exceptions.md` R230): the two launches, the console
input port, the status port. -/

namespace Sys2Proof.Machine

/-- Launch from an image (`20_memory.md` R67, `70_reset_and_hazards.md` R250, R252): the reset state over the image's words.
An odd byte count, or more than 32768 words, is refused; where both hold, the odd count is named first, which is the model's choice
(log entry 26). -/
def State.launch (p : Params) (image : List Byte) : Host.Outcome State Fault Refusal :=
  if image.length % 2 ≠ 0 then .refused .oddImage
  else if 65536 < image.length then .refused .imageTooLarge
  else .next (State.construct p (Memory.ofImage image))

/-- Launch from a snapshot (`70_reset_and_hazards.md` R253): the reset state with no image, then what a successful `load` sets.
A snapshot that does not parse is no launch (D24); a missing artifact is named before a malformed one (log entry 18). -/
def State.launchSnapshot (p : Params) (files : List Artifact) (name : Line) : Host.Outcome State Fault Refusal :=
  let s := State.construct p Memory.empty
  match readSnapshot files name with
  | .ok x => .next ((s.setHost { s.host with files := files }).restore x)
  | .error .notFound => .refused .snapshotNotFound
  | .error .corrupt => .refused .snapshotCorrupt

/-- The host offers bytes at the console input port (`60_exceptions.md` R213): taken later, in order. Between steps only. -/
def State.offerInput (s : State) (bs : List Byte) : State := s.setInput (s.input ++ bs)

/-- The status port (`60_exceptions.md` R226). -/
def State.status (s : State) : RunState × Option FaultRecord := (s.run, s.fault)

/-- The numeric fault codes (`60_exceptions.md` R200, D33). -/
def FaultKind.code : FaultKind → Nat
  | .invalidOpcode => 1
  | .invalidOperand => 2
  | .invalidDestination => 3
  | .stackUnderflow => 4
  | .divisionByZero => 5
  | .outOfBounds => 6
  | .stackOverflow => 7

end Sys2Proof.Machine
end

