-- ==== Sys2Proof/Safety.lean ====
section
/-! DEFINITION. What a consistent state is, and what a safe run is, in the terms claims use. -/

namespace Sys2Proof.Machine

/-- What holds in every state a launch leads to: the word store is in canonical form with N ≤ 32768 (`20_memory.md` R50);
registers and stack elements are Words (`10_state.md` R22, R35); a fault is recorded exactly when the core is FAULTED (R32);
only a RUNNING core is suspended (R31, `60_exceptions.md` R222). -/
structure State.Inv (s : State) : Prop where
  mem_wf : s.mem.wf
  regs_word : ∀ r, IsWord (s.reg r)
  stack_word : ∀ w ∈ s.stack, IsWord w
  fault_iff : s.fault ≠ none ↔ s.run = .faulted
  debug_running : s.susp = .debug → s.run = .running

/-- `t` comes out of `s` by some number of steps with no fault of the model in between. -/
inductive Reaches : State → State → Prop where
  | refl (s : State) : Reaches s s
  | step {s t u : State} : Reaches s t → Machine.step t = .next u → Reaches s u

/-- A safe state: no fatal error has been raised. -/
abbrev State.Safe (s : State) : Prop := s.run ≠ .faulted

/-- A safe run from `s`: every state it reaches is safe. -/
def SafeFrom (s : State) : Prop := ∀ t, Reaches s t → t.Safe

end Sys2Proof.Machine
end

