-- ==== Sys2Proof/Certificates/Slice0/Obligations.lean ====
section
/-! DEFINITION. The statements for the provers. Each docstring names the rule it formalises, or the sections it rests on. -/

namespace Sys2Proof.Machine

/-- The rule of an instruction `op a, b, c` that writes `f vb vc` to register a and raises nothing of its own: its words, its
result, and its faults in the order of `30_encoding.md` R83. -/
def BinaryRule (mk : Operand → Operand → Operand → Instr) (op : Word) (f : Word → Word → Word) : Prop :=
  ∀ (a b c : Operand) (s : State),
    encode (mk a b c) = [op, a.toWord, b.toWord, c.toWord] ∧
    (∀ d vb vc, a = .reg d → s.resolve b = .ok vb → s.resolve c = .ok vc →
      exec (mk a b c) s = .next { s with regs := s.regs.set d.val (f vb vc) d.isLt, pc := s.pc + 4 }) ∧
    ((∀ d, a ≠ .reg d) → exec (mk a b c) s = .next (s.raise .invalidDestination (some op))) ∧
    (∀ d w, a = .reg d → b = .invalid w → exec (mk a b c) s = .next (s.raise .invalidOperand (some op))) ∧
    (∀ d vb w, a = .reg d → s.resolve b = .ok vb → c = .invalid w →
      exec (mk a b c) s = .next (s.raise .invalidOperand (some op)))

/-- The rule of an instruction `op a, b` that writes `f vb` to register a and raises nothing of its own. -/
def UnaryRule (mk : Operand → Operand → Instr) (op : Word) (f : Word → Word) : Prop :=
  ∀ (a b : Operand) (s : State),
    encode (mk a b) = [op, a.toWord, b.toWord] ∧
    (∀ d vb, a = .reg d → s.resolve b = .ok vb →
      exec (mk a b) s = .next { s with regs := s.regs.set d.val (f vb) d.isLt, pc := s.pc + 3 }) ∧
    ((∀ d, a ≠ .reg d) → exec (mk a b) s = .next (s.raise .invalidDestination (some op))) ∧
    (∀ d w, a = .reg d → b = .invalid w → exec (mk a b) s = .next (s.raise .invalidOperand (some op)))

/-- The rule of a jump `op a, b` on the condition `taken` of a: b is resolved only when the jump is taken. -/
def JumpRule (mk : Operand → Operand → Instr) (op : Word) (taken : Word → Prop) : Prop :=
  ∀ (a b : Operand) (s : State),
    encode (mk a b) = [op, a.toWord, b.toWord] ∧
    (∀ v t, s.resolve a = .ok v → taken v → s.resolve b = .ok t → exec (mk a b) s = .next { s with pc := t.toNat }) ∧
    (∀ v, s.resolve a = .ok v → ¬ taken v → exec (mk a b) s = .next { s with pc := s.pc + 3 }) ∧
    (∀ w, a = .invalid w → exec (mk a b) s = .next (s.raise .invalidOperand (some op))) ∧
    (∀ v w, s.resolve a = .ok v → taken v → b = .invalid w →
      exec (mk a b) s = .next (s.raise .invalidOperand (some op)))

/-- Nothing but the program counter, or the run state and the fault record of a fault taken in `s`, differs. -/
def OnlyControlDiffers (s t : State) : Prop :=
  t = { s with pc := t.pc, run := t.run, fault := t.fault }

/-- Every byte of the serialised word store reads as before. -/
def SameMemory (s t : State) : Prop := ∀ a, t.mem.byte a = s.mem.byte a

/-- The debug channel has a whole line in its input: the core is suspended, and `line` comes before the first byte 10. That ONE
step then takes the line, handles its command and leaves is the model's choice (log entry 9). -/
def AtCommand (s : State) (line : Line) (rest : List Byte) : Prop :=
  s.run = .running ∧ s.susp = .debug ∧ splitLine s.input = some (line, rest)

/-- `t` writes the number `n` in decimal: one or more ASCII digits, the most significant first, leading zeros allowed (that
syntax is the model's choice, log entry 15). -/
def IsDecimal (t : Line) (n : Nat) : Prop :=
  t ≠ [] ∧ (∀ b ∈ t, 48 ≤ b.toNat ∧ b.toNat ≤ 57) ∧ t.foldl (fun acc b => 10 * acc + (b.toNat - 48)) 0 = n

/-- The lines write the words, one a line, each a decimal in 0..32775. -/
def WordLines (lines : List Line) (ws : List Word) : Prop :=
  List.Forall₂ (fun l w => IsDecimal l w.toNat ∧ w.toNat ≤ 32775) lines ws

/-- Both artifacts of `name` stand in storage: a text record of these lines, and a dump of these bytes. -/
def Stands (files : List Artifact) (name : Line) (lines : List Line) (bs : List Byte) : Prop :=
  ∃ a, files.find? (fun a => a.name = name) = some a ∧ a.record = some lines ∧ a.dump = some bs

/-- The artifacts hold the snapshot `x` (`60_exceptions.md` R217, R224, R225): a line with the pc in decimal, exactly 8 register
lines and then the stack lines bottom to top, each a decimal in 0..32775; an even number of bytes, at most 32768 words, word k
at bytes 2k and 2k + 1. -/
def HoldsSnapshot (lines : List Line) (bs : List Byte) (x : Snapshot) : Prop :=
  (∃ pcLine regLines stackLines, lines = pcLine :: (regLines ++ stackLines) ∧ regLines.length = 8 ∧
    IsDecimal pcLine x.pc ∧ WordLines regLines x.regs.toList ∧ WordLines stackLines x.stack) ∧
  bs.length % 2 = 0 ∧ bs.length ≤ 65536 ∧ x.mem.wf ∧ x.mem.size = bs.length / 2 ∧
  ∀ k, k < bs.length / 2 → ∃ w, x.mem.read k = some w ∧
    w.toNat = (bs.getD (2 * k) 0).toNat + 256 * (bs.getD (2 * k + 1) 0).toNat

end Sys2Proof.Machine

open Sys2Proof Sys2Proof.Machine

/-! ### Encoding -/

/-- Decoding the words of a well-formed instruction gives it back, and leaves what follows (R73, R77, R87). -/
def Obligations.DecodeInvertsEncode : Prop :=
  ∀ (i : Instr) (rest : List Word), i.wf = true → decodeWords (encode i ++ rest) = .ok (i, rest)

/-- What decodes to an instruction is that instruction's words, and the instruction is well formed (R73, R77, R87). -/
def Obligations.EncodeInvertsDecode : Prop :=
  ∀ (ws rest : List Word) (i : Instr), decodeWords ws = .ok (i, rest) → ws = encode i ++ rest ∧ i.wf = true

/-- Words written out from the encodings of R77 and R87 decode to the instructions they stand for, one or more of every
family. -/
def Obligations.KnownWordsDecode : Prop :=
  decodeWords [0] = .ok (.halt, []) ∧
  decodeWords [1, 0x8000, 60] = .ok (.set (.reg 0) (.lit 60), []) ∧
  decodeWords [5, 0x8006, 0x8004, 0x8002] = .ok (.gt (.reg 6) (.reg 4) (.reg 2), []) ∧
  decodeWords [7, 0, 40000] = .ok (.jt (.lit 0) (.invalid 40000), []) ∧
  decodeWords [9, 0x8002, 0x8000, 0x8001] = .ok (.add (.reg 2) (.reg 0) (.reg 1), []) ∧
  decodeWords [14, 0x8004, 0x8003] = .ok (.not (.reg 4) (.reg 3), []) ∧
  decodeWords [16, 10, 19] = .ok (.wmem (.lit 10) (.lit 19), []) ∧
  decodeWords [18, 7] = .ok (.ret, [7]) ∧
  decodeWords [20, 0x8007] = .ok (.inp (.reg 7), [])

/-- R78: the raw word selects the row of its number when it is 0..21, and raises InvalidOpcode otherwise, register references
included. -/
def Obligations.OpcodeIsTheRawWord : Prop :=
  (∀ (op : Word) (k : Nat) (ws : List Word), op.toNat ≤ 21 → operandCount op.toNat = some k → k ≤ ws.length →
    ∃ i, decodeWords (op :: ws) = .ok (i, ws.drop k) ∧ i.opcode = op ∧
      i.operands = (ws.take k).map Operand.ofWord) ∧
  (∀ (s : State) (op : Word), s.run = .running → s.susp = .none → s.mem.read s.pc = some op → 21 < op.toNat →
    step s = .next (s.raise .invalidOpcode (some op)))

/-- R74 and R75: the two modes of the operand resolver, on every raw operand word. -/
def Obligations.OperandResolver : Prop :=
  ∀ (s : State) (w : Word),
    (w.toNat ≤ 32767 → s.resolve (.ofWord w) = .ok w ∧ destination (.ofWord w) = .error .invalidDestination) ∧
    (∀ r : Fin 8, w.toNat = 32768 + r.val →
      s.resolve (.ofWord w) = .ok (s.reg r) ∧ destination (.ofWord w) = .ok r) ∧
    (32775 < w.toNat →
      s.resolve (.ofWord w) = .error .invalidOperand ∧ destination (.ofWord w) = .error .invalidDestination)

/-! ### The step -/

/-- R82: when the words at pc are those of a well-formed instruction, a running, unsuspended core's step is that instruction's
handler, with pc still at its opcode word. -/
def Obligations.StepRunsTheDecodedInstruction : Prop :=
  ∀ (s : State) (i : Instr), s.run = .running → s.susp = .none → i.wf = true →
    (∀ k w, (encode i)[k]? = some w → s.mem.read (s.pc + k) = some w) → step s = exec i s

/-- R83, items 1 to 3: the faults of the fetch, in their order. -/
def Obligations.FetchFaults : Prop :=
  ∀ s : State, s.run = .running → s.susp = .none →
    (s.mem.size ≤ s.pc → step s = .next (s.raise .outOfBounds none)) ∧
    (∀ op, s.mem.read s.pc = some op → 21 < op.toNat → step s = .next (s.raise .invalidOpcode (some op))) ∧
    (∀ op k, s.mem.read s.pc = some op → operandCount op.toNat = some k → s.mem.size ≤ s.pc + k →
      step s = .next (s.raise .outOfBounds (some op)))

/-- R204: neither HALTED nor FAULTED has a step; no instruction returns from a fault. -/
def Obligations.EndedCoreHasNoStep : Prop :=
  ∀ s : State, s.run ≠ .running → ∀ t, step s ≠ .next t

/-- R213, R215, R227: no step is ever refused, and a RUNNING core has no step in two cases only: an `in` with a valid
destination and no byte, or a suspended core whose input holds no byte 10 (that the channel then takes no byte at all is the
model's choice, log entry 9). -/
def Obligations.RunningCoreWaitsInTwoCasesOnly : Prop :=
  (∀ s r, step s ≠ .refused r) ∧
  ∀ (s : State) (f : Fault), s.run = .running → step s = .fault f →
    (f = .waitingForInput ∧ s.susp = .none ∧ s.input = [] ∧ ∃ d, fetch s = .ok (.inp (.reg d))) ∨
    (f = .waitingForCommandLine ∧ s.susp = .debug ∧ ∀ b ∈ s.input, b.toNat ≠ 10)

/-- R201, R203: a step that ends in FAULTED changes nothing but the run state and the fault record; the record holds a kind, the
address of the failing instruction and the raw opcode word there (none where there is no cell); the core then has no step. -/
def Obligations.FaultEntryIsPrecise : Prop :=
  ∀ s t : State, step s = .next t → t.run = .faulted →
    (∃ k, t = { s with run := .faulted, fault := some { kind := k, pc := s.pc, opcode := s.mem.read s.pc } }) ∧
    step t = .fault .faulted

/-- R26: where pc goes. An instruction that leaves the core RUNNING and is no jump, call, ret or sentinel `in` goes to p + 1 + k;
what ends the run or suspends the core leaves pc. -/
def Obligations.ProgramCounterAdvance : Prop :=
  ∀ (i : Instr) (s t : State), s.run = .running → s.susp = .none → exec i s = .next t →
    (t.run = .running → t.susp = .none → i ≠ .ret → (∀ a, i ≠ .jmp a ∧ i ≠ .call a) → (∀ a b, i ≠ .jt a b ∧ i ≠ .jf a b) →
      t.pc = s.pc + 1 + i.operands.length) ∧
    (t.run ≠ .running ∨ t.susp = .debug → t.pc = s.pc)

/-! ### halt, set, push, pop -/

/-- R100. -/
def Obligations.HaltStopsTheCore : Prop :=
  encode .halt = [0] ∧
  ∀ s : State, exec .halt s = .next { s with run := .halted } ∧ step { s with run := .halted } = .fault .halted

/-- R101. -/
def Obligations.SetCopiesTheValue : Prop := UnaryRule .set 1 fun vb => vb

/-- R102. A depth above the limit: `PushAboveTheLimitFaults`. -/
def Obligations.PushPutsTheValueOnTop : Prop :=
  ∀ (a : Operand) (s : State),
    encode (.push a) = [2, a.toWord] ∧
    (∀ v, s.resolve a = .ok v → (∀ limit, s.params.stackLimit = some limit → s.stack.length < limit) →
      exec (.push a) s = .next { s with stack := s.stack ++ [v], pc := s.pc + 2 }) ∧
    (∀ w, a = .invalid w → exec (.push a) s = .next (s.raise .invalidOperand (some 2))) ∧
    (∀ v limit, s.resolve a = .ok v → s.params.stackLimit = some limit → s.stack.length = limit →
      exec (.push a) s = .next (s.raise .stackOverflow (some 2)))

/-- R103. -/
def Obligations.PopTakesTheTop : Prop :=
  ∀ (a : Operand) (s : State),
    encode (.pop a) = [3, a.toWord] ∧
    (∀ d v st, a = .reg d → s.stack = st ++ [v] →
      exec (.pop a) s = .next { s with stack := st, regs := s.regs.set d.val v d.isLt, pc := s.pc + 2 }) ∧
    ((∀ d, a ≠ .reg d) → exec (.pop a) s = .next (s.raise .invalidDestination (some 3))) ∧
    (∀ d, a = .reg d → s.stack = [] → exec (.pop a) s = .next (s.raise .stackUnderflow (some 3)))

/-! ### Comparison, arithmetic, logic -/

/-- R120, R121: 1 or 0, on the full unsigned values. -/
def Obligations.CompareWritesZeroOrOne : Prop :=
  BinaryRule .eq 4 (fun vb vc => if vb.toNat = vc.toNat then 1 else 0) ∧
  BinaryRule .gt 5 (fun vb vc => if vb.toNat > vc.toNat then 1 else 0)

/-- R140, R141: the exact result, reduced modulo 32768. -/
def Obligations.AddAndMultModulo32768 : Prop :=
  BinaryRule .add 9 (fun vb vc => BitVec.ofNat 16 ((vb.toNat + vc.toNat) % 32768)) ∧
  BinaryRule .mult 10 (fun vb vc => BitVec.ofNat 16 (vb.toNat * vc.toNat % 32768))

/-- R142: the natural remainder, not reduced; a divisor of 0 raises DivisionByZero. -/
def Obligations.ModIsTheNaturalRemainder : Prop :=
  ∀ (a b c : Operand) (s : State),
    encode (.mod a b c) = [11, a.toWord, b.toWord, c.toWord] ∧
    (∀ d vb vc, a = .reg d → s.resolve b = .ok vb → s.resolve c = .ok vc → vc.toNat ≠ 0 →
      ∃ v : Word, v.toNat = vb.toNat % vc.toNat ∧
        exec (.mod a b c) s = .next { s with regs := s.regs.set d.val v d.isLt, pc := s.pc + 4 }) ∧
    (∀ d vb vc, a = .reg d → s.resolve b = .ok vb → s.resolve c = .ok vc → vc.toNat = 0 →
      exec (.mod a b c) s = .next (s.raise .divisionByZero (some 11))) ∧
    ((∀ d, a ≠ .reg d) → exec (.mod a b c) s = .next (s.raise .invalidDestination (some 11))) ∧
    (∀ d w, a = .reg d → b = .invalid w → exec (.mod a b c) s = .next (s.raise .invalidOperand (some 11))) ∧
    (∀ d vb w, a = .reg d → s.resolve b = .ok vb → c = .invalid w →
      exec (.mod a b c) s = .next (s.raise .invalidOperand (some 11)))

/-- R150, R151, R152: bitwise on naturals, kept to 15 bits. -/
def Obligations.LogicIsMaskedTo15Bits : Prop :=
  BinaryRule .and 12 (fun vb vc => BitVec.ofNat 16 ((vb.toNat &&& vc.toNat) % 32768)) ∧
  BinaryRule .or 13 (fun vb vc => BitVec.ofNat 16 ((vb.toNat ||| vc.toNat) % 32768)) ∧
  UnaryRule .not 14 (fun vb => BitVec.ofNat 16 (32767 - vb.toNat % 32768))

/-- R22: what arithmetic, logic, comparison and `in` write is 0..32767, whatever the operands hold. -/
def Obligations.ResultsAreLiterals : Prop :=
  ∀ (i : Instr) (d : Fin 8) (s t : State), i.destReg = some d → exec i s = .next t → s.run = .running → s.susp = .none →
    t.run = .running → t.susp = .none →
    (∀ b, i ≠ .set (.reg d) b ∧ i ≠ .rmem (.reg d) b) → i ≠ .pop (.reg d) → (∀ b c, i ≠ .mod (.reg d) b c) →
    (t.reg d).toNat ≤ 32767

/-! ### Jumps -/

/-- R130. -/
def Obligations.JmpGoesToTheTarget : Prop :=
  ∀ (a : Operand) (s : State),
    encode (.jmp a) = [6, a.toWord] ∧
    (∀ t, s.resolve a = .ok t → exec (.jmp a) s = .next { s with pc := t.toNat }) ∧
    (∀ w, a = .invalid w → exec (.jmp a) s = .next (s.raise .invalidOperand (some 6)))

/-- R131, R132: taken exactly on a nonzero (`jt`) or zero (`jf`) condition. -/
def Obligations.ConditionalJumps : Prop :=
  JumpRule .jt 7 (fun v => v.toNat ≠ 0) ∧ JumpRule .jf 8 (fun v => v.toNat = 0)

/-! ### Memory -/

/-- R160. -/
def Obligations.RmemCopiesTheRawWord : Prop :=
  ∀ (a b : Operand) (s : State),
    encode (.rmem a b) = [15, a.toWord, b.toWord] ∧
    (∀ d addr m, a = .reg d → s.resolve b = .ok addr → s.mem.read addr.toNat = some m → m.toNat ≤ 32775 →
      exec (.rmem a b) s = .next { s with regs := s.regs.set d.val m d.isLt, pc := s.pc + 3 }) ∧
    ((∀ d, a ≠ .reg d) → exec (.rmem a b) s = .next (s.raise .invalidDestination (some 15))) ∧
    (∀ d w, a = .reg d → b = .invalid w → exec (.rmem a b) s = .next (s.raise .invalidOperand (some 15))) ∧
    (∀ d addr, a = .reg d → s.resolve b = .ok addr → s.mem.size ≤ addr.toNat →
      exec (.rmem a b) s = .next (s.raise .outOfBounds (some 15))) ∧
    (∀ d addr m, a = .reg d → s.resolve b = .ok addr → s.mem.read addr.toNat = some m → 32775 < m.toNat →
      exec (.rmem a b) s = .next (s.raise .invalidOperand (some 15)))

/-- R161: the cell at the resolved address holds the resolved value, every other cell and everything else but pc is as before.
The canonical form is a premise, since only there does an unlisted byte read as it should. -/
def Obligations.WmemStoresTheValue : Prop :=
  ∀ (a b : Operand) (s : State),
    encode (.wmem a b) = [16, a.toWord, b.toWord] ∧
    (∀ addr v, s.mem.wf → s.resolve a = .ok addr → s.resolve b = .ok v → addr.toNat < s.mem.size →
      ∃ m : Memory, exec (.wmem a b) s = .next { s with mem := m, pc := s.pc + 3 } ∧ m.size = s.mem.size ∧
        m.read addr.toNat = some v ∧ ∀ k, k ≠ addr.toNat → m.read k = s.mem.read k) ∧
    (∀ w, a = .invalid w → exec (.wmem a b) s = .next (s.raise .invalidOperand (some 16))) ∧
    (∀ addr w, s.resolve a = .ok addr → b = .invalid w → exec (.wmem a b) s = .next (s.raise .invalidOperand (some 16))) ∧
    (∀ addr v, s.resolve a = .ok addr → s.resolve b = .ok v → s.mem.size ≤ addr.toNat →
      exec (.wmem a b) s = .next (s.raise .outOfBounds (some 16)))

/-- R64, R256: a `wmem` to the word after itself is seen by the very next fetch: an illegal word faults there, a 21 runs as
`noop`. -/
def Obligations.StoreIsSeenByTheNextFetch : Prop :=
  ∀ (s : State) (a b : Operand) (addr v : Word), s.Inv → s.run = .running → s.susp = .none →
    fetch s = .ok (.wmem a b) → s.resolve a = .ok addr → s.resolve b = .ok v → addr.toNat = s.pc + 3 →
    addr.toNat < s.mem.size →
    ∃ t, step s = .next t ∧ t.pc = s.pc + 3 ∧
      (21 < v.toNat → step t = .next (t.raise .invalidOpcode (some v))) ∧
      (v.toNat = 21 → step t = .next { t with pc := s.pc + 4 })

/-! ### Call and return -/

/-- R170: the target resolves before the push of p + 2; the premise on pc holds of every fetched `call`. A depth above the limit:
`PushAboveTheLimitFaults`. -/
def Obligations.CallPushesTheReturnAddress : Prop :=
  ∀ (a : Operand) (s : State),
    encode (.call a) = [17, a.toWord] ∧
    (∀ t, s.pc + 1 < s.mem.size → s.mem.size ≤ 32768 → s.resolve a = .ok t →
      (∀ limit, s.params.stackLimit = some limit → s.stack.length < limit) →
      ∃ r : Word, r.toNat = s.pc + 2 ∧ exec (.call a) s = .next { s with stack := s.stack ++ [r], pc := t.toNat }) ∧
    (∀ w, a = .invalid w → exec (.call a) s = .next (s.raise .invalidOperand (some 17))) ∧
    (∀ t limit, s.resolve a = .ok t → s.params.stackLimit = some limit → s.stack.length = limit →
      exec (.call a) s = .next (s.raise .stackOverflow (some 17)))

/-- The model's choice (log entry 5): at a depth above STACK_LIMIT, which only a loaded snapshot gives, `push` and `call` raise
StackOverflow as they do at the limit. R102 and R170 name the depth that equals the limit; R200 (code 7) names a push that would
exceed it. -/
def Obligations.PushAboveTheLimitFaults : Prop :=
  ∀ (a : Operand) (s : State) (v : Word) (limit : Nat), s.resolve a = .ok v → s.params.stackLimit = some limit →
    limit < s.stack.length →
    exec (.push a) s = .next (s.raise .stackOverflow (some 2)) ∧
    exec (.call a) s = .next (s.raise .stackOverflow (some 17))

/-- R171: to the top of the stack; an empty stack is normal termination. -/
def Obligations.RetGoesToTheTopOrHalts : Prop :=
  encode .ret = [18] ∧
  ∀ s : State,
    (∀ st t, s.stack = st ++ [t] → exec .ret s = .next { s with stack := st, pc := t.toNat }) ∧
    (s.stack = [] → exec .ret s = .next { s with run := .halted })

/-- A `call` and the `ret` that meets the stack it left: control comes back to the word after the call, and the stack is as
before the call (`95_test_vectors.md` L1-E, property 4; R171). -/
def Obligations.MatchedCallAndReturn : Prop :=
  ∀ (a : Operand) (s t u : State), s.run = .running → s.pc + 1 < s.mem.size → s.mem.size ≤ 32768 →
    exec (.call a) s = .next t → t.run = .running → u.stack = t.stack →
    ∃ v, exec .ret u = .next v ∧ v.pc = s.pc + 2 ∧ v.stack = s.stack

/-! ### Console -/

/-- R180. -/
def Obligations.OutSendsOneByte : Prop :=
  ∀ (a : Operand) (s : State),
    encode (.out a) = [19, a.toWord] ∧
    (∀ v, s.resolve a = .ok v →
      exec (.out a) s = .next { s with output := s.output ++ [BitVec.ofNat 8 (v.toNat % 256)], pc := s.pc + 2 }) ∧
    (∀ w, a = .invalid w → exec (.out a) s = .next (s.raise .invalidOperand (some 19)))

/-- R181: the destination is checked before a byte is taken; the next byte's value is written; the sentinel is consumed and
suspends the core; with no byte offered there is no step. -/
def Obligations.InTakesOneByte : Prop :=
  ∀ (a : Operand) (s : State),
    encode (.inp a) = [20, a.toWord] ∧
    (∀ d c rest, a = .reg d → s.input = c :: rest → c ≠ s.params.sentinel →
      ∃ v : Word, v.toNat = c.toNat ∧
        exec (.inp a) s = .next { s with input := rest, regs := s.regs.set d.val v d.isLt, pc := s.pc + 2 }) ∧
    (∀ d rest, a = .reg d → s.input = s.params.sentinel :: rest →
      exec (.inp a) s = .next { s with input := rest, susp := .debug }) ∧
    (∀ d, a = .reg d → s.input = [] → exec (.inp a) s = .fault .waitingForInput) ∧
    ((∀ d, a ≠ .reg d) → exec (.inp a) s = .next (s.raise .invalidDestination (some 20)))

/-- R213: an `in` with no byte has no step; once the host offers a byte it has one, and takes that byte. -/
def Obligations.OfferedByteEndsTheWait : Prop :=
  ∀ (s : State) (d : Fin 8) (c : Byte) (bs : List Byte), s.run = .running → s.susp = .none →
    fetch s = .ok (.inp (.reg d)) → s.input = [] → c ≠ s.params.sentinel →
    step s = .fault .waitingForInput ∧
    ∃ t, step (s.offerInput (c :: bs)) = .next t ∧ (t.reg d).toNat = c.toNat ∧ t.input = bs ∧ t.pc = s.pc + 2

/-- R182. -/
def Obligations.NoopOnlyAdvances : Prop :=
  encode .noop = [21] ∧ ∀ s : State, exec .noop s = .next { s with pc := s.pc + 1 }

/-! ### Frames -/

/-- The instructions that write a register from values or memory (`set`, `eq`, `gt`, `add`, `mult`, `mod`, `and`, `or`, `not`,
`rmem`): when they give a next state, every register but the destination, the stack, every byte of memory, the streams and the
host's side are as before, and so are the run state and the fault record unless the instruction faulted. -/
def Obligations.RegisterWriterFrame : Prop :=
  ∀ (i : Instr) (s t : State), i.dest.isSome = true → (∀ a, i ≠ .pop a ∧ i ≠ .inp a) → exec i s = .next t →
    (∀ r, i.destReg ≠ some r → t.reg r = s.reg r) ∧ t.stack = s.stack ∧ SameMemory s t ∧ t.mem.size = s.mem.size ∧
    t.susp = s.susp ∧ t.params = s.params ∧ t.input = s.input ∧ t.output = s.output ∧ t.host = s.host ∧
    ((t.run = s.run ∧ t.fault = s.fault) ∨ ∃ k, t = s.raise k (some i.opcode))

/-- The instructions of the stack (`push`, `pop`, `call`, `ret`): every register but the destination of `pop`, every byte of
memory, the streams and the host's side are as before; the stack changes only at its top, by one element; the run state and the
fault record are as before unless the instruction faulted, which changes only them, or is a `ret` that halts, which changes only
the run state. -/
def Obligations.StackInstructionFrame : Prop :=
  ∀ (i : Instr) (s t : State), (i = .ret ∨ ∃ a, i = .push a ∨ i = .pop a ∨ i = .call a) → exec i s = .next t →
    (∀ r, i.destReg ≠ some r → t.reg r = s.reg r) ∧
    (t.stack = s.stack ∨ (∃ v, t.stack = s.stack ++ [v]) ∨ ∃ v, s.stack = t.stack ++ [v]) ∧
    SameMemory s t ∧ t.mem.size = s.mem.size ∧
    t.susp = s.susp ∧ t.params = s.params ∧ t.input = s.input ∧ t.output = s.output ∧ t.host = s.host ∧
    ((t.run = s.run ∧ t.fault = s.fault) ∨ (i = .ret ∧ t = { s with run := .halted }) ∨ ∃ k, t = s.raise k (some i.opcode))

/-- `halt`, `jmp`, `jt`, `jf`, `noop`: only pc, the run state and the fault record may differ; in particular every register and
every byte of memory is as before. -/
def Obligations.ControlInstructionFrame : Prop :=
  ∀ (i : Instr) (s t : State), (i = .halt ∨ i = .noop ∨ (∃ a, i = .jmp a) ∨ ∃ a b, i = .jt a b ∨ i = .jf a b) →
    exec i s = .next t →
    OnlyControlDiffers s t ∧ (∀ r, t.reg r = s.reg r) ∧ SameMemory s t ∧
    ((t.run = s.run ∧ t.fault = s.fault) ∨ (i = .halt ∧ t = { s with run := .halted }) ∨ ∃ k, t = s.raise k (some i.opcode))

/-- `out` and `in`: `out` changes only the output and pc, `in` only its register, the input, the suspension and pc (or either
faults); stack, memory and the host's side are as before. -/
def Obligations.ConsoleInstructionFrame : Prop :=
  ∀ (i : Instr) (s t : State), (∃ a, i = .out a ∨ i = .inp a) → exec i s = .next t →
    (∀ r, i.destReg ≠ some r → t.reg r = s.reg r) ∧ t.stack = s.stack ∧ SameMemory s t ∧ t.mem.size = s.mem.size ∧
    t.params = s.params ∧ t.host = s.host ∧
    ((∃ a, i = .out a) → t.input = s.input ∧ t.susp = s.susp) ∧ ((∃ a, i = .inp a) → t.output = s.output) ∧
    ((t.run = s.run ∧ t.fault = s.fault) ∨ ∃ k, t = s.raise k (some i.opcode))

/-- `wmem`: every byte of memory outside the two of the addressed cell reads as before, N, every register, the stack, the streams
and the host's side are as before, whatever the memory's form. Where the address does not resolve, every byte reads as before. -/
def Obligations.WmemFrame : Prop :=
  ∀ (a b : Operand) (s t : State), exec (.wmem a b) s = .next t →
    (∀ addr, s.resolve a = .ok addr → ∀ k, k ≠ 2 * addr.toNat → k ≠ 2 * addr.toNat + 1 → t.mem.byte k = s.mem.byte k) ∧
    ((∀ addr, s.resolve a ≠ .ok addr) → SameMemory s t) ∧
    t.mem.size = s.mem.size ∧ (∀ r, t.reg r = s.reg r) ∧ t.stack = s.stack ∧
    t.susp = s.susp ∧ t.params = s.params ∧ t.input = s.input ∧ t.output = s.output ∧ t.host = s.host ∧
    ((t.run = s.run ∧ t.fault = s.fault) ∨ ∃ k, t = s.raise k (some 16))

/-! ### Whole-machine rules -/

/-- Every step keeps the invariant: the memory's canonical form and N ≤ 32768 (R50), registers and stack elements are Words
(R22, R35), a fault is recorded exactly when FAULTED (R32), only a RUNNING core is suspended. -/
def Obligations.StepKeepsTheInvariant : Prop :=
  ∀ s t : State, s.Inv → step s = .next t → t.Inv

/-- The invariant holds at reset. -/
def Obligations.ResetMeetsTheInvariant : Prop := State.reset.Inv

/-- R25, R27: whatever instruction runs, a pc it sets is at most 32775; only a debug `load` sets a higher one. -/
def Obligations.ProgramCounterBound : Prop :=
  ∀ s t : State, s.Inv → s.susp = .none → step s = .next t → t.pc = s.pc ∨ t.pc ≤ 32775

/-- R51, R54, R66: during a run memory changes only by `wmem` and by a debug `load`; every other step leaves all of it. (A command
is one step: log entry 9.) -/
def Obligations.MemoryChangesOnlyByWmemOrLoad : Prop :=
  ∀ s t : State, step s = .next t →
    (t.mem.size = s.mem.size ∧ SameMemory s t) ∨
    (s.susp = .none ∧ t.mem.size = s.mem.size ∧ ∃ a b, fetch s = .ok (.wmem a b)) ∨
    ∃ line rest name, AtCommand s line rest ∧ parseCommand line = .load name

/-- R23: a register that a step changed is the destination of the instruction it ran, or was written by `setreg` or `load`. (A
command is one step: log entry 9.) -/
def Obligations.RegistersChangeOnlyByTheirWriters : Prop :=
  ∀ (s t : State) (r : Fin 8), step s = .next t → t.reg r ≠ s.reg r →
    (s.susp = .none ∧ ∃ i, fetch s = .ok i ∧ i.destReg = some r) ∨
    ∃ line rest, AtCommand s line rest ∧
      ((∃ v, parseCommand line = .setreg r.val v) ∨ ∃ name, parseCommand line = .load name)

/-- R33: a step that changed the stack ran `push`, `pop`, `call` or `ret`, or was a `load`. (A command is one step: log entry
9.) -/
def Obligations.StackChangesOnlyByItsInstructions : Prop :=
  ∀ s t : State, step s = .next t → t.stack ≠ s.stack →
    (s.susp = .none ∧ ∃ i, fetch s = .ok i ∧ (i = .ret ∨ ∃ a, i = .push a ∨ i = .pop a ∨ i = .call a)) ∨
    ∃ line rest name, AtCommand s line rest ∧ parseCommand line = .load name

/-- R212, R213: the output only grows at its end, by one byte and only by `out`; the input is only taken from its front, and
only by `in` or the debug channel. -/
def Obligations.ConsoleStreamsMoveInOrder : Prop :=
  ∀ s t : State, step s = .next t →
    (t.output = s.output ∨ (s.susp = .none ∧ ∃ a v, fetch s = .ok (.out a) ∧ s.resolve a = .ok v ∧
      t.output = s.output ++ [BitVec.ofNat 8 (v.toNat % 256)])) ∧
    (∃ taken, s.input = taken ++ t.input) ∧
    (t.input = s.input ∨ s.susp = .debug ∨ ∃ d, fetch s = .ok (.inp (.reg d)))

/-- The launch's parameters never change (R5, D15; holding them in State is the model's choice, log entry 4). -/
def Obligations.ParametersAreFixed : Prop :=
  ∀ s t : State, step s = .next t → t.params = s.params

/-- R41, R220: no instruction reads or writes the host's side of the debug port: with another host's side, an instruction does
the same and leaves that host's side alone. -/
def Obligations.InstructionsIgnoreTheHostSide : Prop :=
  ∀ (i : Instr) (s : State) (h : HostSide),
    exec i { s with host := h } =
      match exec i s with
      | .next t => .next { t with host := h }
      | .fault f => .fault f
      | .refused r => .refused r

/-! ### The debug channel -/

/-- R214: the channel is entered only from an `in` that takes the sentinel; pc and every register stay. -/
def Obligations.DebugIsEnteredOnlyFromIn : Prop :=
  ∀ s t : State, step s = .next t → t.susp = .debug →
    s.susp = .none ∧ ∃ d rest, fetch s = .ok (.inp (.reg d)) ∧ s.input = s.params.sentinel :: rest ∧
      t = { s with input := rest, susp := .debug }

/-- R215: the channel takes the bytes up to and with the next byte 10, and handles one command; with no byte 10 the core stays
suspended. The model's choice (log entry 9): ONE step takes the whole line and leaves, and without byte 10 no byte is taken. -/
def Obligations.DebugTakesOneLine : Prop :=
  ∀ s : State, s.run = .running → s.susp = .debug →
    (∀ line rest nl, s.input = line ++ nl :: rest → (∀ b ∈ line, b.toNat ≠ 10) → nl.toNat = 10 →
      ∃ t, step s = .next t ∧ t.input = rest ∧ t.susp = .none) ∧
    ((∀ b ∈ s.input, b.toNat ≠ 10) → step s = .fault .waitingForCommandLine)

/-- R215 to R221: command lines, read, one space between tokens. `save` and `load` take a name of any bytes but white space, and
"001" when it is omitted; `setreg` takes two decimal numbers; `barfreg` and `barfstack` stand alone; `logging` takes `on` or
`off`; any other first token, upper-case spellings included, is unrecognised whatever follows it, and so is the empty line. The
model's choices: which bytes are white space (`isSpace`, log entry 14) and what is a decimal (log entry 15); bad arguments of
`logging`, and one name for them and those of `setreg` (log entry 17); a line of white space only (log entry 25). -/
def Obligations.CommandLinesAreRead : Prop :=
  (∀ name : Line, name ≠ [] → (∀ b ∈ name, isSpace b = false) →
    parseCommand (nameSave ++ 0x20 :: name) = .save name ∧ parseCommand (nameLoad ++ 0x20 :: name) = .load name) ∧
  parseCommand nameSave = .save [0x30, 0x30, 0x31] ∧ parseCommand nameLoad = .load [0x30, 0x30, 0x31] ∧
  (∀ (i v : Line) (m n : Nat), IsDecimal i m → IsDecimal v n →
    parseCommand (nameSetreg ++ 0x20 :: i ++ 0x20 :: v) = .setreg m n) ∧
  (∀ i v : Line, i ≠ [] → v ≠ [] → (∀ b ∈ i, isSpace b = false) → (∀ b ∈ v, isSpace b = false) →
    (∀ n, ¬ IsDecimal i n) ∨ (∀ n, ¬ IsDecimal v n) →
    parseCommand (nameSetreg ++ 0x20 :: i ++ 0x20 :: v) = .badArguments) ∧
  (∀ i : Line, i ≠ [] → (∀ b ∈ i, isSpace b = false) → parseCommand (nameSetreg ++ 0x20 :: i) = .badArguments) ∧
  parseCommand nameSetreg = .badArguments ∧
  parseCommand nameBarfreg = .barfreg ∧ parseCommand nameBarfstack = .barfstack ∧
  parseCommand (nameLogging ++ 0x20 :: nameOn) = .logging true ∧
  parseCommand (nameLogging ++ 0x20 :: nameOff) = .logging false ∧
  (∀ t : Line, t ≠ [] → (∀ b ∈ t, isSpace b = false) → t ≠ nameOn → t ≠ nameOff →
    parseCommand (nameLogging ++ 0x20 :: t) = .badArguments) ∧
  parseCommand nameLogging = .badArguments ∧
  (∀ t : Line, t ≠ [] → (∀ b ∈ t, isSpace b = false) →
    t ∉ [nameSave, nameLoad, nameSetreg, nameBarfreg, nameBarfstack, nameLogging] →
    parseCommand t = .unrecognized ∧ ∀ args, parseCommand (t ++ 0x20 :: args) = .unrecognized) ∧
  parseCommand [] = .unrecognized ∧
  ∀ line : Line, (∀ b ∈ line, isSpace b = true) → parseCommand line = .unrecognized

/-- R222: leaving the channel. The core is RUNNING and unsuspended, and pc is where it was, except after a `load` that
succeeded, which takes it to the snapshot's (what `readSnapshot` answers: `SnapshotIsReadUnderItsConditions`). That the channel is
left in the single step that took the line is the model's choice (log entry 9). -/
def Obligations.DebugLeavesAfterOneCommand : Prop :=
  ∀ s t : State, s.susp = .debug → step s = .next t →
    t.susp = .none ∧ t.run = .running ∧ t.fault = s.fault ∧ t.output = s.output ∧
    (t.pc = s.pc ∨ ∃ line rest name x, AtCommand s line rest ∧ parseCommand line = .load name ∧
      readSnapshot s.host.files name = .ok x ∧ t.pc = x.pc)

/-- R218: `setreg` writes the one register, or reports an error and changes nothing. The model's choices: that it is one step
(log entry 9), the names of the reports, and which one is given for an index from 8 on with a value above 32775 (log entry
17). -/
def Obligations.SetregWritesOneRegister : Prop :=
  ∀ (s : State) (line : Line) (rest : List Byte) (i v : Nat), AtCommand s line rest → parseCommand line = .setreg i v →
    (∀ h : i < 8, v ≤ 32775 → ∃ w : Word, w.toNat = v ∧
      step s = .next { s with input := rest, susp := .none, regs := s.regs.set i w h }) ∧
    (8 ≤ i → step s = .next { s with
      input := rest, susp := .none, host := { s.host with reports := s.host.reports ++ [.indexOutOfRange] } }) ∧
    (i < 8 → 32775 < v → step s = .next { s with
      input := rest, susp := .none, host := { s.host with reports := s.host.reports ++ [.badArguments] } })

/-- R206, R216, R218 to R222: after a command that is no `load` and no `setreg` of two decimals, everything but the input, the
suspension and the host's side is as before. What the host's side then holds: `barfreg` reports registers 0 to 7, `barfstack` the
stack, `logging` sets the flag, an unrecognised command, bad arguments and a failed `save` are reported; nothing else of it
changes (a `save` that succeeds: `SaveWritesTheSnapshot`). The model's choices: one step a command (log entry 9), reports held as
data (log entry 11), a bad `logging` argument and the name of the report on bad arguments (log entry 17), and that a failed `save`
leaves storage (log entry 13). -/
def Obligations.OtherCommandsLeaveTheCore : Prop :=
  ∀ (s : State) (line : Line) (rest : List Byte), AtCommand s line rest →
    ((∀ name, parseCommand line ≠ .load name) → (∀ i v, parseCommand line ≠ .setreg i v) →
      ∃ h, step s = .next { s with input := rest, susp := .none, host := h }) ∧
    (parseCommand line = .barfreg → step s = .next { s with
      input := rest, susp := .none, host := { s.host with reports := s.host.reports ++ [.registers s.regs.toList] } }) ∧
    (parseCommand line = .barfstack → step s = .next { s with
      input := rest, susp := .none, host := { s.host with reports := s.host.reports ++ [.stack s.stack] } }) ∧
    (∀ on, parseCommand line = .logging on → step s = .next { s with
      input := rest, susp := .none, host := { s.host with logging := on } }) ∧
    (parseCommand line = .unrecognized → step s = .next { s with
      input := rest, susp := .none, host := { s.host with reports := s.host.reports ++ [.unrecognizedCommand] } }) ∧
    (parseCommand line = .badArguments → step s = .next { s with
      input := rest, susp := .none, host := { s.host with reports := s.host.reports ++ [.badArguments] } }) ∧
    (∀ name, parseCommand line = .save name → s.host.saveFails = true → step s = .next { s with
      input := rest, susp := .none, host := { s.host with reports := s.host.reports ++ [.saveFailed] } })

/-- R216, R224, R225: a `save` that storage accepts leaves the core, and writes the artifacts that hold pc, the registers, the
stack and the memory; what stands under every other name is as before. The model's choices: one step a command (log entry 9),
artifacts held as lines and bytes (log entry 10), when storage accepts (log entry 13), replacing what stood there (log entry
18). -/
def Obligations.SaveWritesTheSnapshot : Prop :=
  ∀ (s : State) (line : Line) (rest : List Byte) (name : Line), s.Inv → AtCommand s line rest →
    parseCommand line = .save name → s.host.saveFails = false →
    ∃ files lines bs,
      step s = .next { s with input := rest, susp := .none, host := { s.host with files := files } } ∧
      Stands files name lines bs ∧ HoldsSnapshot lines bs { pc := s.pc, regs := s.regs, stack := s.stack, mem := s.mem } ∧
      ∀ other, other ≠ name →
        files.find? (fun a => a.name = other) = s.host.files.find? (fun a => a.name = other)

/-- R217: a snapshot reads completely exactly when both artifacts stand in storage and hold one; an artifact missing is
`SnapshotNotFound`, one malformed `SnapshotCorrupt`. The model's choices: a missing artifact is reported before a malformed one
(log entry 18), the syntax of a decimal (log entry 15), artifacts held as lines and bytes (log entry 10). -/
def Obligations.SnapshotIsReadUnderItsConditions : Prop :=
  ∀ (files : List Artifact) (name : Line),
    (∀ lines bs, Stands files name lines bs →
      (∀ x, readSnapshot files name = .ok x ↔ HoldsSnapshot lines bs x) ∧
      ((∀ x, ¬ HoldsSnapshot lines bs x) → readSnapshot files name = .error .corrupt)) ∧
    ((∀ lines bs, ¬ Stands files name lines bs) → readSnapshot files name = .error .notFound)

/-- R217: `load` sets all four components when both artifacts stand in storage and hold a snapshot; when one is malformed or
missing it reports the error and changes none. The model's choices: consuming the line, loading and leaving are one step (log
entry 9), a missing artifact is reported before a malformed one (log entry 18), the syntax of a decimal (log entry 15). -/
def Obligations.LoadIsAllOrNothing : Prop :=
  ∀ (s : State) (line : Line) (rest : List Byte) (name : Line), AtCommand s line rest → parseCommand line = .load name →
    (∀ lines bs x, Stands s.host.files name lines bs → HoldsSnapshot lines bs x → step s = .next { s with
      input := rest, susp := .none, pc := x.pc, regs := x.regs, stack := x.stack, mem := x.mem }) ∧
    (∀ lines bs, Stands s.host.files name lines bs → (∀ x, ¬ HoldsSnapshot lines bs x) → step s = .next { s with
      input := rest, susp := .none, host := { s.host with reports := s.host.reports ++ [.snapshotCorrupt] } }) ∧
    ((∀ lines bs, ¬ Stands s.host.files name lines bs) → step s = .next { s with
      input := rest, susp := .none, host := { s.host with reports := s.host.reports ++ [.snapshotNotFound] } })

/-- R228: the snapshot round trip. From every suspended state that meets the invariant, a `save` that storage accepts, and then a
`load` of the same name in any suspended state over the same storage, give back pc, registers, stack and memory. The model's
choices: one step a command (log entry 9), and when storage accepts a `save` (log entry 13). -/
def Obligations.SnapshotRoundTrip : Prop :=
  ∀ (s u : State) (line line' : Line) (rest rest' : List Byte) (name : Line), s.Inv → s.host.saveFails = false →
    AtCommand s line rest → parseCommand line = .save name →
    AtCommand u line' rest' → parseCommand line' = .load name →
    ∃ t, step s = .next t ∧ t.pc = s.pc ∧ t.regs = s.regs ∧ t.stack = s.stack ∧ t.mem = s.mem ∧
      (u.host.files = t.host.files →
        ∃ v, step u = .next v ∧ v.pc = s.pc ∧ v.regs = s.regs ∧ v.stack = s.stack ∧ v.mem = s.mem)

/-! ### Launch and reset -/

/-- R67, R250, R252: a launch from an image of an even number of bytes, at most 65536: N is half of it, cell k is bytes 2k (low)
and 2k + 1 (high), and every other piece of state is at its reset value. Any other image is refused. The model's choice (log entry
26): the names of the two refusals, and that an image both odd and above 65536 bytes is refused as odd. -/
def Obligations.LaunchLoadsTheImage : Prop :=
  ∀ (p : Params) (image : List Byte),
    (image.length % 2 = 0 → image.length ≤ 65536 →
      ∃ s, State.launch p image = .next s ∧ s.mem.size = image.length / 2 ∧
        (∀ k, k < image.length / 2 → ∃ w, s.mem.read k = some w ∧
          w.toNat = (image.getD (2 * k) 0).toNat + 256 * (image.getD (2 * k + 1) 0).toNat) ∧
        s.run = .running ∧ s.susp = .none ∧ s.pc = 0 ∧ (∀ r, s.reg r = 0) ∧ s.stack = [] ∧ s.fault = none ∧
        s.params = p ∧ s.Inv) ∧
    (image.length % 2 = 1 → State.launch p image = .refused .oddImage) ∧
    (image.length % 2 = 0 → 65536 < image.length → State.launch p image = .refused .imageTooLarge)

/-- R253: a launch from a snapshot starts RUNNING and unsuspended with the snapshot's four components; a snapshot that does not
parse is no launch. When one parses: `SnapshotIsReadUnderItsConditions`. -/
def Obligations.LaunchFromSnapshot : Prop :=
  ∀ (p : Params) (files : List Artifact) (name : Line),
    (∀ x, readSnapshot files name = .ok x → ∃ s, State.launchSnapshot p files name = .next s ∧
      s.run = .running ∧ s.susp = .none ∧ s.fault = none ∧ s.params = p ∧
      s.pc = x.pc ∧ s.regs = x.regs ∧ s.stack = x.stack ∧ s.mem = x.mem ∧ s.Inv) ∧
    (∀ e, readSnapshot files name = .error e → ∀ s, State.launchSnapshot p files name ≠ .next s)

/-- R40: the reset values of every piece of state the spec gives one, and the empty word store of a core with no image (the
model's choice, log entry 3). -/
def Obligations.ResetValues : Prop :=
  State.reset.run = .running ∧ State.reset.susp = .none ∧ State.reset.pc = 0 ∧ (∀ r, State.reset.reg r = 0) ∧
  State.reset.stack = [] ∧ State.reset.fault = none ∧ State.reset.params.stackLimit = none ∧ State.reset.mem = Memory.empty
end

