-- ==== Sys2Proof/Laws/Decode.lean ====
section
/-! SUPPORT. Small facts of the decoder and the encoder, by operand and by opcode. -/

namespace Sys2Proof

/-! ### Operand words -/

/-- The class of a literal word (`30_encoding.md` R73). -/
theorem Operand.ofWord_lit {w : Word} (h : w.toNat ≤ 32767) : Operand.ofWord w = .lit (w.setWidth 15) := by
  unfold Operand.ofWord
  exact if_pos h

/-- The class of a register reference (R73). -/
theorem Operand.ofWord_reg {w : Word} (r : Fin 8) (h : w.toNat = 32768 + r.val) : Operand.ofWord w = .reg r := by
  have h₁ : ¬ w.toNat ≤ 32767 := by omega
  have h₂ : w.toNat ≤ 32775 := by omega
  rw [Operand.ofWord, if_neg h₁, dif_pos h₂]
  exact congrArg Operand.reg (Fin.ext (by show w.toNat - 32768 = r.val; omega))

/-- The class of an invalid word (R73). -/
theorem Operand.ofWord_invalid {w : Word} (h : 32775 < w.toNat) : Operand.ofWord w = .invalid w := by
  have h₁ : ¬ w.toNat ≤ 32767 := by omega
  have h₂ : ¬ w.toNat ≤ 32775 := by omega
  rw [Operand.ofWord, if_neg h₁, dif_neg h₂]

/-- Each operand word is in one of the three classes (R73). -/
theorem Operand.ofWord_cases (w : Word) :
    (w.toNat ≤ 32767 ∧ Operand.ofWord w = .lit (w.setWidth 15)) ∨
    (∃ r : Fin 8, w.toNat = 32768 + r.val ∧ Operand.ofWord w = .reg r) ∨
    (32775 < w.toNat ∧ Operand.ofWord w = .invalid w) := by
  rcases Nat.lt_or_ge 32767 w.toNat with h | h
  · rcases Nat.lt_or_ge 32775 w.toNat with h' | h'
    · exact .inr (.inr ⟨h', ofWord_invalid h'⟩)
    · exact .inr (.inl ⟨⟨w.toNat - 32768, by omega⟩, by simp only; omega, ofWord_reg _ (by simp only; omega)⟩)
  · exact .inl ⟨h, ofWord_lit h⟩

/-- The word of an operand that a word was read as is that word. -/
@[simp] theorem Operand.toWord_ofWord (w : Word) : (Operand.ofWord w).toWord = w := by
  rcases ofWord_cases w with ⟨h, e⟩ | ⟨r, h, e⟩ | ⟨_, e⟩
  · rw [e]
    apply BitVec.eq_of_toNat_eq
    simp only [toWord, BitVec.toNat_setWidth]
    omega
  · rw [e]
    apply BitVec.eq_of_toNat_eq
    simp only [toWord, BitVec.toNat_ofNat]
    omega
  · rw [e]
    rfl

/-- Every operand read from a word is well formed. -/
@[simp] theorem Operand.wf_ofWord (w : Word) : (Operand.ofWord w).wf = true := by
  rcases ofWord_cases w with ⟨_, e⟩ | ⟨r, _, e⟩ | ⟨h, e⟩ <;> rw [e] <;> simp [wf, *]

/-- A well-formed operand is read back from its word. -/
theorem Operand.ofWord_toWord {a : Operand} (h : a.wf = true) : Operand.ofWord a.toWord = a := by
  cases a with
  | lit v =>
    have hv : (v.setWidth 16 : Word).toNat = v.toNat := by simp only [BitVec.toNat_setWidth]; omega
    rw [toWord, ofWord_lit (by omega)]
    congr 1
    apply BitVec.eq_of_toNat_eq
    simp only [BitVec.toNat_setWidth]
    omega
  | reg r => exact ofWord_reg r (by simp only [toWord, BitVec.toNat_ofNat]; omega)
  | invalid w => exact ofWord_invalid (w := w) (by simpa [wf] using h)

/-! ### Opcodes -/

/-- What an opcode's entry of the map gives has that opcode and those operands (R77). -/
theorem Instr.ofOpcode_eq_some {op : Nat} {args : List Operand} {i : Instr} (h : Instr.ofOpcode op args = some i) :
    i.opcode.toNat = op ∧ i.operands = args := by
  unfold Instr.ofOpcode at h
  split at h <;> cases h <;> exact ⟨rfl, rfl⟩

/-- Every instruction is its opcode's entry of the map (R77). -/
theorem Instr.ofOpcode_opcode (i : Instr) : Instr.ofOpcode i.opcode.toNat i.operands = some i := by
  cases i <;> rfl

/-- The operand count of an instruction's opcode is the number of its operands (R77, R80). -/
theorem operandCount_opcode (i : Instr) : operandCount i.opcode.toNat = some i.operands.length := by
  cases i <;> rfl

/-- The opcodes are 0..21 (R77). -/
theorem Instr.opcode_le (i : Instr) : i.opcode.toNat ≤ 21 := by
  cases i <;> exact Nat.le_of_ble_eq_true rfl

/-- A raw word above 21 is no opcode (R78). -/
theorem operandCount_of_gt {op : Nat} (h : 21 < op) : operandCount op = none := by
  unfold operandCount
  split <;> first | rfl | omega

/-- Only a raw word above 21 is no opcode (R78). -/
theorem operandCount_eq_none {op : Nat} : operandCount op = none ↔ 21 < op := by
  refine ⟨fun h => ?_, operandCount_of_gt⟩
  by_contra hle
  have : op < 22 := by omega
  interval_cases op <;> simp [operandCount] at h

/-- An opcode with exactly its number of operands is an instruction (R77). -/
theorem Instr.ofOpcode_isSome {op k : Nat} (hk : operandCount op = some k) (args : List Operand) (hl : args.length = k) :
    ∃ i, Instr.ofOpcode op args = some i := by
  have hop : op < 22 := by
    by_contra h
    rw [operandCount_of_gt (by omega)] at hk
    cases hk
  interval_cases op <;> simp only [operandCount, Option.some.injEq] at hk <;> subst hk <;>
    rcases args with _ | ⟨a, _ | ⟨b, _ | ⟨c, _ | ⟨d, as⟩⟩⟩⟩ <;>
    simp only [List.length_nil, List.length_cons] at hl <;> first | omega | exact ⟨_, rfl⟩

/-! ### The decoder -/

/-- What a successful decoding says of the words. -/
theorem decodeWords_ok {ws rest : List Word} {i : Instr} (h : decodeWords ws = .ok (i, rest)) :
    ∃ args : List Word, ws = i.opcode :: args ++ rest ∧ i.operands = args.map Operand.ofWord := by
  cases ws with
  | nil => simp [decodeWords] at h
  | cons op ws =>
    simp only [decodeWords] at h
    split at h
    · cases h
    · split at h
      · cases h
      · split at h
        · rename_i i' hi
          obtain ⟨hop, hargs⟩ := Instr.ofOpcode_eq_some hi
          cases h
          refine ⟨ws.take _, ?_, hargs⟩
          rw [List.cons_append, List.take_append_drop, BitVec.eq_of_toNat_eq hop]
        · cases h

/-- An opcode word followed by exactly its operand words decodes, with nothing left over. -/
theorem decodeWords_exact {op : Word} {ws : List Word} (hk : operandCount op.toNat = some ws.length) :
    ∃ i, decodeWords (op :: ws) = .ok (i, []) := by
  obtain ⟨i, hi⟩ := Instr.ofOpcode_isSome hk (ws.map Operand.ofWord) (by simp)
  exact ⟨i, by simp [decodeWords, hk, hi]⟩

/-- A full decoding of exactly one instruction's words. -/
theorem decodeWords_of_ofOpcode {op : Word} {ws : List Word} {i : Instr} (hk : operandCount op.toNat = some ws.length)
    (hi : Instr.ofOpcode op.toNat (ws.map Operand.ofWord) = some i) : decodeWords (op :: ws) = .ok (i, []) := by
  simp [decodeWords, hk, hi]

/-! ### Serialised words -/

/-- Words written as bytes and read back (`20_memory.md` R56). -/
@[simp] theorem wordsOfBytes_bytesOfWords (ws : List Word) : wordsOfBytes (bytesOfWords ws) = some ws := by
  induction ws with
  | nil => rfl
  | cons w ws ih => simp [bytesOfWords, wordsOfBytes, ih]

/-- The table reader is the decoder on the row's words. -/
theorem decodeTableWord_eq (nbits w : Nat) :
    decodeTableWord nbits w = match decodeWords (tableWords nbits w) with
      | .ok (i, _) => some i
      | .error _ => none := by
  have h : decodeBytes (bytesOfWords (tableWords nbits w)) = decodeWords (tableWords nbits w) := by simp [decodeBytes]
  exact congrArg (fun r : Except DecodeError (Instr × List Word) => match r with
    | .ok (i, _) => some i
    | .error _ => none) h

end Sys2Proof
end

