-- ==== Sys2Proof/Laws/Memory.lean ====
section
/-! SUPPORT. The memory operations: reading after writing, what a write leaves alone, and the canonical form, which every
operation keeps and which makes equal memories equal data. -/

namespace Sys2Proof.Machine

/-! ### Byte lists -/

/-- Addresses strictly rise and no listed byte is 0. -/
abbrev Canonical (cs : List Host.Cell) : Prop :=
  cs.Pairwise (fun c d => c.1 < d.1) ∧ ∀ c ∈ cs, c.2 ≠ 0

/-- An address below every listed one reads as 0. -/
theorem byteAt_of_lt {a : Nat} {cs : List Host.Cell} (h : ∀ c ∈ cs, a < c.1) : byteAt a cs = 0 := by
  induction cs with
  | nil => rfl
  | cons c cs ih =>
    have hc := h c (by simp)
    simp only [byteAt]
    rw [if_neg (by omega)]
    exact ih fun d hd => h d (by simp [hd])

/-- A write leaves every other byte alone, whatever the list. -/
theorem byteAt_setByteAt_other {a b : Nat} (v : Byte) (cs : List Host.Cell) (h : b ≠ a) :
    byteAt b (setByteAt a v cs) = byteAt b cs := by
  induction cs with
  | nil => simp only [setByteAt]; split <;> simp [byteAt, h]
  | cons c cs ih =>
    obtain ⟨x, w⟩ := c
    simp only [setByteAt]
    split
    · split <;> simp [byteAt, h]
    · split
      · rename_i hx; subst hx
        split <;> simp [byteAt, h]
      · simp only [byteAt, ih]

/-- The byte just written, in a canonical list. -/
theorem byteAt_setByteAt_same {a : Nat} (v : Byte) {cs : List Host.Cell} (h : Canonical cs) :
    byteAt a (setByteAt a v cs) = v := by
  induction cs with
  | nil => simp only [setByteAt]; split <;> simp_all [byteAt]
  | cons c cs ih =>
    obtain ⟨x, w⟩ := c
    have hp := List.pairwise_cons.1 h.1
    simp only [setByteAt]
    split
    · rename_i hlt
      split
      · rename_i hv
        rw [hv]
        exact byteAt_of_lt (by
          intro c hc
          rcases List.mem_cons.1 hc with rfl | hc
          · exact hlt
          · exact Nat.lt_trans hlt (hp.1 c hc))
      · simp [byteAt]
    · split
      · rename_i hx; subst hx
        split
        · rename_i hv
          rw [hv]
          exact byteAt_of_lt hp.1
        · simp [byteAt]
      · rename_i hx
        simp only [byteAt, if_neg hx]
        exact ih ⟨hp.2, fun c hc => h.2 c (by simp [hc])⟩

/-- What a write lists is the byte written or was listed before. -/
theorem mem_setByteAt {a : Nat} {v : Byte} {cs : List Host.Cell} {c : Host.Cell} (h : c ∈ setByteAt a v cs) :
    (c = (a, v) ∧ v ≠ 0) ∨ c ∈ cs := by
  induction cs with
  | nil => simp only [setByteAt] at h; split at h <;> simp_all
  | cons d cs ih =>
    obtain ⟨x, w⟩ := d
    simp only [setByteAt] at h
    split at h
    · split at h <;> simp_all
    · split at h
      · split at h <;> simp_all
        tauto
      · rcases List.mem_cons.1 h with rfl | h
        · simp
        · rcases ih h with h | h
          · exact .inl h
          · exact .inr (by simp [h])

/-- A write keeps the canonical form. -/
theorem setByteAt_canonical (a : Nat) (v : Byte) {cs : List Host.Cell} (h : Canonical cs) :
    Canonical (setByteAt a v cs) := by
  induction cs with
  | nil => simp only [setByteAt]; split <;> simp_all [Canonical]
  | cons c cs ih =>
    obtain ⟨x, w⟩ := c
    have hp := List.pairwise_cons.1 h.1
    have ht : Canonical cs := ⟨hp.2, fun c hc => h.2 c (by simp [hc])⟩
    have hw : w ≠ 0 := h.2 (x, w) (by simp)
    simp only [setByteAt]
    split
    · rename_i hlt
      split
      · exact h
      · rename_i hv
        refine ⟨List.pairwise_cons.2 ⟨?_, h.1⟩, ?_⟩
        · intro c hc
          rcases List.mem_cons.1 hc with rfl | hc
          · exact hlt
          · exact Nat.lt_trans hlt (hp.1 c hc)
        · intro c hc
          rcases List.mem_cons.1 hc with rfl | hc
          · exact hv
          · exact h.2 c hc
    · split
      · rename_i hx; subst hx
        split
        · exact ht
        · rename_i hv
          refine ⟨List.pairwise_cons.2 ⟨hp.1, hp.2⟩, ?_⟩
          intro c hc
          rcases List.mem_cons.1 hc with rfl | hc
          · exact hv
          · exact ht.2 c hc
      · rename_i hge hne
        refine ⟨List.pairwise_cons.2 ⟨?_, (ih ht).1⟩, ?_⟩
        · intro c hc
          rcases mem_setByteAt hc with ⟨rfl, -⟩ | hc
          · exact Nat.lt_of_le_of_ne (Nat.le_of_not_lt hge) (Ne.symm hne)
          · exact hp.1 c hc
        · intro c hc
          rcases List.mem_cons.1 hc with rfl | hc
          · exact hw
          · exact (ih ht).2 c hc

/-- Two canonical lists that read the same everywhere are the same list. -/
theorem canonical_ext {cs ds : List Host.Cell} (hc : Canonical cs) (hd : Canonical ds)
    (h : ∀ a, byteAt a cs = byteAt a ds) : cs = ds := by
  induction cs generalizing ds with
  | nil =>
    cases ds with
    | nil => rfl
    | cons d ds =>
      have := h d.1
      simp only [byteAt, ↓reduceIte] at this
      exact absurd this.symm (hd.2 d (by simp))
  | cons c cs ih =>
    obtain ⟨x, v⟩ := c
    have hpc := List.pairwise_cons.1 hc.1
    cases ds with
    | nil =>
      have := h x
      simp only [byteAt, ↓reduceIte] at this
      exact absurd this (hc.2 (x, v) (by simp))
    | cons d ds =>
      obtain ⟨y, w⟩ := d
      have hpd := List.pairwise_cons.1 hd.1
      have hv : v ≠ 0 := hc.2 (x, v) (by simp)
      have hw : w ≠ 0 := hd.2 (y, w) (by simp)
      have hxy : x = y := by
        rcases Nat.lt_trichotomy x y with hlt | heq | hgt
        · have := h x
          rw [byteAt_of_lt (cs := (y, w) :: ds) (by
            intro e he
            rcases List.mem_cons.1 he with rfl | he
            · exact hlt
            · exact Nat.lt_trans hlt (hpd.1 e he))] at this
          simp [byteAt] at this
          exact absurd this hv
        · exact heq
        · have := h y
          rw [byteAt_of_lt (cs := (x, v) :: cs) (by
            intro e he
            rcases List.mem_cons.1 he with rfl | he
            · exact hgt
            · exact Nat.lt_trans hgt (hpc.1 e he))] at this
          simp [byteAt] at this
          exact absurd this.symm hw
      subst hxy
      have hvw : v = w := by simpa [byteAt] using h x
      subst hvw
      congr 1
      refine ih ⟨hpc.2, fun c hc' => hc.2 c (by simp [hc'])⟩ ⟨hpd.2, fun c hc' => hd.2 c (by simp [hc'])⟩ ?_
      intro a
      by_cases ha : a = x
      · subst ha
        rw [byteAt_of_lt hpc.1, byteAt_of_lt hpd.1]
      · simpa [byteAt, ha] using h a

/-! ### Images -/

/-- What an image's byte list lists lies in the image and is not 0. -/
theorem mem_cellsFrom {a : Nat} {vs : List Byte} {c : Host.Cell} (h : c ∈ cellsFrom a vs) :
    a ≤ c.1 ∧ c.1 < a + vs.length ∧ c.2 ≠ 0 := by
  induction vs generalizing a with
  | nil => simp [cellsFrom] at h
  | cons v vs ih =>
    have tail : c ∈ cellsFrom (a + 1) vs → a ≤ c.1 ∧ c.1 < a + (v :: vs).length ∧ c.2 ≠ 0 := fun h => by
      have := ih h
      simp only [List.length_cons]
      exact ⟨by omega, by omega, this.2.2⟩
    simp only [cellsFrom] at h
    split at h
    · exact tail h
    · rename_i hv
      rcases List.mem_cons.1 h with rfl | h
      · exact ⟨Nat.le_refl _, by simp, hv⟩
      · exact tail h

/-- An image's byte list is canonical. -/
theorem cellsFrom_canonical (a : Nat) (vs : List Byte) : Canonical (cellsFrom a vs) := by
  refine ⟨?_, fun c hc => (mem_cellsFrom hc).2.2⟩
  induction vs generalizing a with
  | nil => simp [cellsFrom]
  | cons v vs ih =>
    simp only [cellsFrom]
    split
    · exact ih (a + 1)
    · exact List.pairwise_cons.2 ⟨fun c hc => by have := (mem_cellsFrom hc).1; simp only at *; omega, ih (a + 1)⟩

/-- Reading an image's byte list: the image's byte, 0 outside it. -/
theorem byteAt_cellsFrom (a b : Nat) (vs : List Byte) :
    byteAt b (cellsFrom a vs) = if a ≤ b then vs.getD (b - a) 0 else 0 := by
  induction vs generalizing a with
  | nil => simp [cellsFrom, byteAt]
  | cons v vs ih =>
    have hcons : byteAt b (cellsFrom a (v :: vs)) = if b = a then v else byteAt b (cellsFrom (a + 1) vs) := by
      simp only [cellsFrom]
      split
      · rename_i hv
        split
        · rename_i hb
          rw [hv, hb]
          exact byteAt_of_lt fun c hc => (mem_cellsFrom hc).1
        · rfl
      · simp [byteAt]
    rw [hcons, ih]
    by_cases hb : b = a
    · simp [hb]
    · by_cases hlt : a ≤ b
      · have e : b - a = (b - (a + 1)) + 1 := by omega
        rw [if_neg hb, if_pos (by omega), if_pos hlt, e, List.getD_cons_succ]
      · rw [if_neg hb, if_neg (by omega), if_neg hlt]

/-- How many bytes are read. -/
@[simp] theorem bytesFrom_length (cs : List Host.Cell) (a n : Nat) : (bytesFrom cs a n).length = n := by
  induction n generalizing a with
  | zero => rfl
  | succ n ih => simp [bytesFrom, ih]

/-- Each byte read is the byte at its address. -/
theorem bytesFrom_getD (cs : List Host.Cell) (a n k : Nat) (h : k < n) :
    (bytesFrom cs a n).getD k 0 = byteAt (a + k) cs := by
  induction n generalizing a k with
  | zero => omega
  | succ n ih =>
    cases k with
    | zero => simp [bytesFrom]
    | succ k =>
      rw [bytesFrom, List.getD_cons_succ, ih (a + 1) k (by omega)]
      congr 1
      omega

namespace Memory

/-- The canonical form of the byte list of a well-formed memory. -/
theorem wf.canonical {m : Memory} (h : m.wf) : Canonical m.bytes := ⟨h.2.1, fun c hc => (h.2.2 c hc).2⟩

/-- The empty word store is well formed. -/
theorem empty_wf : Memory.empty.wf := by decide

/-- A cell write keeps N. -/
@[simp] theorem setCell_size (m : Memory) (a : Nat) (v : Word) : (m.setCell a v).size = m.size := rfl

/-- A cell write in bounds keeps the well-formed form. -/
theorem setCell_wf {m : Memory} (h : m.wf) {a : Nat} (v : Word) (ha : a < m.size) : (m.setCell a v).wf := by
  have c := setByteAt_canonical (2 * a) (lowByte v) (setByteAt_canonical (2 * a + 1) (highByte v) h.canonical)
  refine ⟨h.1, c.1, fun e he => ⟨?_, c.2 e he⟩⟩
  rcases mem_setByteAt he with ⟨rfl, -⟩ | he
  · simp only [setCell]; omega
  · rcases mem_setByteAt he with ⟨rfl, -⟩ | he
    · simp only [setCell]; omega
    · exact (h.2.2 e he).1

/-- What a write that is in bounds gives, and when it gives nothing. -/
theorem write_eq_some {m m' : Memory} {a : Nat} {v : Word} : m.write a v = some m' ↔ a < m.size ∧ m' = m.setCell a v := by
  unfold write
  split <;> rename_i h
  · simp [h, eq_comm]
  · simp [h]

/-- A write is out of bounds exactly from N on. -/
theorem write_eq_none {m : Memory} {a : Nat} {v : Word} : m.write a v = none ↔ m.size ≤ a := by
  unfold write
  split <;> simp <;> omega

/-- A read is out of bounds exactly from N on. -/
theorem read_eq_none {m : Memory} {a : Nat} : m.read a = none ↔ m.size ≤ a := by
  unfold read
  split <;> simp <;> omega

/-- A read that gives a word is in bounds. -/
theorem lt_size_of_read {m : Memory} {a : Nat} {w : Word} (h : m.read a = some w) : a < m.size := by
  by_contra hlt
  rw [read_eq_none.2 (by omega)] at h
  cases h

/-- A write keeps the well-formed form. -/
theorem write_wf {m m' : Memory} {a : Nat} {v : Word} (h : m.wf) (hw : m.write a v = some m') : m'.wf := by
  obtain ⟨ha, rfl⟩ := write_eq_some.1 hw
  exact setCell_wf h v ha

/-- A cell write leaves every byte outside the cell's two alone. -/
theorem byte_setCell_other (m : Memory) {a b : Nat} (v : Word) (h₀ : b ≠ 2 * a) (h₁ : b ≠ 2 * a + 1) :
    (m.setCell a v).byte b = m.byte b := by
  simp only [byte, setCell, byteAt_setByteAt_other _ _ h₀, byteAt_setByteAt_other _ _ h₁]

/-- Reading the cell just written (`20_memory.md` R58). -/
theorem read_setCell_same {m : Memory} (h : m.wf) {a : Nat} (v : Word) (ha : a < m.size) :
    (m.setCell a v).read a = some v := by
  have c := setByteAt_canonical (2 * a + 1) (highByte v) h.canonical
  simp only [read, setCell, ha, ↓reduceIte, byteAt_setByteAt_same (lowByte v) c,
    byteAt_setByteAt_other (lowByte v) _ (show 2 * a + 1 ≠ 2 * a by omega), byteAt_setByteAt_same (highByte v) h.canonical,
    wordOfBytes_low_high]

/-- Reading another cell. -/
theorem read_setCell_other (m : Memory) {a b : Nat} (v : Word) (h : b ≠ a) : (m.setCell a v).read b = m.read b := by
  simp only [read, setCell,
    byteAt_setByteAt_other (lowByte v) _ (show 2 * b ≠ 2 * a by omega),
    byteAt_setByteAt_other (highByte v) _ (show 2 * b ≠ 2 * a + 1 by omega),
    byteAt_setByteAt_other (lowByte v) _ (show 2 * b + 1 ≠ 2 * a by omega),
    byteAt_setByteAt_other (highByte v) _ (show 2 * b + 1 ≠ 2 * a + 1 by omega)]

/-- An image of at most 32768 words is a well-formed word store. -/
theorem ofImage_wf {bs : List Byte} (he : bs.length % 2 = 0) (hl : bs.length ≤ 65536) : (Memory.ofImage bs).wf := by
  have c := cellsFrom_canonical 0 bs
  refine ⟨?_, c.1, fun e h => ⟨?_, c.2 e h⟩⟩
  · simp only [ofImage]; omega
  · have := (mem_cellsFrom h).2.1
    simp only [ofImage]; omega

/-- Cell k of an image (`20_memory.md` R67). -/
theorem read_ofImage (bs : List Byte) {k : Nat} (h : k < bs.length / 2) :
    (Memory.ofImage bs).read k = some (wordOfBytes (bs.getD (2 * k) 0) (bs.getD (2 * k + 1) 0)) := by
  simp [read, ofImage, h, byteAt_cellsFrom]

/-- The dump has two bytes a cell. -/
@[simp] theorem dump_length (m : Memory) : m.dump.length = 2 * m.size := by simp [dump]

/-- A well-formed word store lists no byte from 2·N on. -/
theorem byteAt_of_size_le {m : Memory} (h : m.wf) {a : Nat} (ha : 2 * m.size ≤ a) : byteAt a m.bytes = 0 := by
  have hlt : ∀ cs : List Host.Cell, (∀ c ∈ cs, c.1 < 2 * m.size) → byteAt a cs = 0 := by
    intro cs hcs
    induction cs with
    | nil => rfl
    | cons c cs ih =>
      have := hcs c (by simp)
      simp only [byteAt]
      rw [if_neg (by omega)]
      exact ih fun d hd => hcs d (by simp [hd])
  exact hlt _ fun c hc => (h.2.2 c hc).1

/-- A dump read back as an image is the word store it was written from (`60_exceptions.md` R225, R228). -/
theorem ofImage_dump {m : Memory} (h : m.wf) : Memory.ofImage m.dump = m := by
  have hb : cellsFrom 0 m.dump = m.bytes := by
    refine canonical_ext (cellsFrom_canonical _ _) h.canonical fun a => ?_
    rw [byteAt_cellsFrom, if_pos (Nat.zero_le a), Nat.sub_zero]
    by_cases ha : a < 2 * m.size
    · rw [dump, bytesFrom_getD _ _ _ _ ha, Nat.zero_add]
    · rw [List.getD_eq_default _ _ (by simp; omega)]
      exact (byteAt_of_size_le h (by omega)).symm
  have hs : m.dump.length / 2 = m.size := by simp
  unfold ofImage
  rw [hb, hs]

/-- Two well-formed word stores of one size that read the same in every cell are the same. -/
theorem ext_of_read {m m' : Memory} (h : m.wf) (h' : m'.wf) (hs : m.size = m'.size)
    (hr : ∀ k, k < m.size → m.read k = m'.read k) : m = m' := by
  have hb : ∀ a, byteAt a m.bytes = byteAt a m'.bytes := by
    intro a
    by_cases ha : a < 2 * m.size
    · have hk := hr (a / 2) (by omega)
      simp only [read, show a / 2 < m.size by omega, show a / 2 < m'.size by omega, if_true, Option.some.injEq] at hk
      have hl := congrArg lowByte hk
      have hh := congrArg highByte hk
      simp only [lowByte_wordOfBytes, highByte_wordOfBytes] at hl hh
      rcases Nat.mod_two_eq_zero_or_one a with h0 | h1
      · rwa [show 2 * (a / 2) = a by omega] at hl
      · rwa [show 2 * (a / 2) + 1 = a by omega] at hh
    · rw [byteAt_of_size_le h (by omega), byteAt_of_size_le h' (by omega)]
  have hc := canonical_ext h.canonical h'.canonical hb
  cases m
  cases m'
  simp_all

/-- Laying down cells that fit keeps the well-formed form. -/
theorem setCells_wf {m : Memory} (h : m.wf) (a : Nat) (ws : List Word) (ha : a + ws.length ≤ m.size) :
    (m.setCells a ws).wf := by
  induction ws generalizing m a with
  | nil => exact h
  | cons w ws ih =>
    simp only [List.length_cons] at ha
    exact ih (setCell_wf h w (by omega)) (a + 1) (by simp only [setCell_size]; omega)

/-- Laying down cells keeps N. -/
@[simp] theorem setCells_size (m : Memory) (a : Nat) (ws : List Word) : (m.setCells a ws).size = m.size := by
  induction ws generalizing m a with
  | nil => rfl
  | cons w ws ih => simp [setCells, ih]

/-- Raising N (to at most 32768) keeps the well-formed form. -/
theorem grow_wf {m : Memory} (h : m.wf) {n : Nat} (hn : m.size ≤ n) (hmax : n ≤ 32768) : ({ m with size := n } : Memory).wf :=
  ⟨hmax, h.2.1, fun c hc => ⟨Nat.lt_of_lt_of_le (h.2.2 c hc).1 (by simp only; omega), (h.2.2 c hc).2⟩⟩

end Memory

end Sys2Proof.Machine
end

