-- ==== Sys2Proof/Laws/State.lean ====
section
/-! SUPPORT. What each named update of State leaves in each field, one lemma per field and update, and reading a register after
an update. -/

namespace Sys2Proof.Machine.State

variable (s : State)

/-! ### `setReg` -/

@[simp] theorem setReg_run (r : Fin 8) (v : Word) : (s.setReg r v).run = s.run := rfl
@[simp] theorem setReg_susp (r : Fin 8) (v : Word) : (s.setReg r v).susp = s.susp := rfl
@[simp] theorem setReg_pc (r : Fin 8) (v : Word) : (s.setReg r v).pc = s.pc := rfl
@[simp] theorem setReg_regs (r : Fin 8) (v : Word) : (s.setReg r v).regs = s.regs.set r.val v r.isLt := rfl
@[simp] theorem setReg_stack (r : Fin 8) (v : Word) : (s.setReg r v).stack = s.stack := rfl
@[simp] theorem setReg_mem (r : Fin 8) (v : Word) : (s.setReg r v).mem = s.mem := rfl
@[simp] theorem setReg_fault (r : Fin 8) (v : Word) : (s.setReg r v).fault = s.fault := rfl
@[simp] theorem setReg_params (r : Fin 8) (v : Word) : (s.setReg r v).params = s.params := rfl
@[simp] theorem setReg_input (r : Fin 8) (v : Word) : (s.setReg r v).input = s.input := rfl
@[simp] theorem setReg_output (r : Fin 8) (v : Word) : (s.setReg r v).output = s.output := rfl
@[simp] theorem setReg_host (r : Fin 8) (v : Word) : (s.setReg r v).host = s.host := rfl

/-! ### `setPc` -/

@[simp] theorem setPc_run (t : Nat) : (s.setPc t).run = s.run := rfl
@[simp] theorem setPc_susp (t : Nat) : (s.setPc t).susp = s.susp := rfl
@[simp] theorem setPc_pc (t : Nat) : (s.setPc t).pc = t := rfl
@[simp] theorem setPc_regs (t : Nat) : (s.setPc t).regs = s.regs := rfl
@[simp] theorem setPc_stack (t : Nat) : (s.setPc t).stack = s.stack := rfl
@[simp] theorem setPc_mem (t : Nat) : (s.setPc t).mem = s.mem := rfl
@[simp] theorem setPc_fault (t : Nat) : (s.setPc t).fault = s.fault := rfl
@[simp] theorem setPc_params (t : Nat) : (s.setPc t).params = s.params := rfl
@[simp] theorem setPc_input (t : Nat) : (s.setPc t).input = s.input := rfl
@[simp] theorem setPc_output (t : Nat) : (s.setPc t).output = s.output := rfl
@[simp] theorem setPc_host (t : Nat) : (s.setPc t).host = s.host := rfl
@[simp] theorem setPc_reg (t : Nat) (q : Fin 8) : (s.setPc t).reg q = s.reg q := rfl

/-! ### `advance` -/

@[simp] theorem advance_run (k : Nat) : (s.advance k).run = s.run := rfl
@[simp] theorem advance_susp (k : Nat) : (s.advance k).susp = s.susp := rfl
@[simp] theorem advance_pc (k : Nat) : (s.advance k).pc = s.pc + 1 + k := rfl
@[simp] theorem advance_regs (k : Nat) : (s.advance k).regs = s.regs := rfl
@[simp] theorem advance_stack (k : Nat) : (s.advance k).stack = s.stack := rfl
@[simp] theorem advance_mem (k : Nat) : (s.advance k).mem = s.mem := rfl
@[simp] theorem advance_fault (k : Nat) : (s.advance k).fault = s.fault := rfl
@[simp] theorem advance_params (k : Nat) : (s.advance k).params = s.params := rfl
@[simp] theorem advance_input (k : Nat) : (s.advance k).input = s.input := rfl
@[simp] theorem advance_output (k : Nat) : (s.advance k).output = s.output := rfl
@[simp] theorem advance_host (k : Nat) : (s.advance k).host = s.host := rfl
@[simp] theorem advance_reg (k : Nat) (q : Fin 8) : (s.advance k).reg q = s.reg q := rfl

/-! ### `setStack` -/

@[simp] theorem setStack_run (st : List Word) : (s.setStack st).run = s.run := rfl
@[simp] theorem setStack_susp (st : List Word) : (s.setStack st).susp = s.susp := rfl
@[simp] theorem setStack_pc (st : List Word) : (s.setStack st).pc = s.pc := rfl
@[simp] theorem setStack_regs (st : List Word) : (s.setStack st).regs = s.regs := rfl
@[simp] theorem setStack_stack (st : List Word) : (s.setStack st).stack = st := rfl
@[simp] theorem setStack_mem (st : List Word) : (s.setStack st).mem = s.mem := rfl
@[simp] theorem setStack_fault (st : List Word) : (s.setStack st).fault = s.fault := rfl
@[simp] theorem setStack_params (st : List Word) : (s.setStack st).params = s.params := rfl
@[simp] theorem setStack_input (st : List Word) : (s.setStack st).input = s.input := rfl
@[simp] theorem setStack_output (st : List Word) : (s.setStack st).output = s.output := rfl
@[simp] theorem setStack_host (st : List Word) : (s.setStack st).host = s.host := rfl
@[simp] theorem setStack_reg (st : List Word) (q : Fin 8) : (s.setStack st).reg q = s.reg q := rfl

/-! ### `setMem` -/

@[simp] theorem setMem_run (m : Memory) : (s.setMem m).run = s.run := rfl
@[simp] theorem setMem_susp (m : Memory) : (s.setMem m).susp = s.susp := rfl
@[simp] theorem setMem_pc (m : Memory) : (s.setMem m).pc = s.pc := rfl
@[simp] theorem setMem_regs (m : Memory) : (s.setMem m).regs = s.regs := rfl
@[simp] theorem setMem_stack (m : Memory) : (s.setMem m).stack = s.stack := rfl
@[simp] theorem setMem_mem (m : Memory) : (s.setMem m).mem = m := rfl
@[simp] theorem setMem_fault (m : Memory) : (s.setMem m).fault = s.fault := rfl
@[simp] theorem setMem_params (m : Memory) : (s.setMem m).params = s.params := rfl
@[simp] theorem setMem_input (m : Memory) : (s.setMem m).input = s.input := rfl
@[simp] theorem setMem_output (m : Memory) : (s.setMem m).output = s.output := rfl
@[simp] theorem setMem_host (m : Memory) : (s.setMem m).host = s.host := rfl
@[simp] theorem setMem_reg (m : Memory) (q : Fin 8) : (s.setMem m).reg q = s.reg q := rfl

/-! ### `stop` -/

@[simp] theorem stop_run : (s.stop).run = .halted := rfl
@[simp] theorem stop_susp : (s.stop).susp = s.susp := rfl
@[simp] theorem stop_pc : (s.stop).pc = s.pc := rfl
@[simp] theorem stop_regs : (s.stop).regs = s.regs := rfl
@[simp] theorem stop_stack : (s.stop).stack = s.stack := rfl
@[simp] theorem stop_mem : (s.stop).mem = s.mem := rfl
@[simp] theorem stop_fault : (s.stop).fault = s.fault := rfl
@[simp] theorem stop_params : (s.stop).params = s.params := rfl
@[simp] theorem stop_input : (s.stop).input = s.input := rfl
@[simp] theorem stop_output : (s.stop).output = s.output := rfl
@[simp] theorem stop_host : (s.stop).host = s.host := rfl
@[simp] theorem stop_reg (q : Fin 8) : (s.stop).reg q = s.reg q := rfl

/-! ### `setSusp` -/

@[simp] theorem setSusp_run (v : Suspension) : (s.setSusp v).run = s.run := rfl
@[simp] theorem setSusp_susp (v : Suspension) : (s.setSusp v).susp = v := rfl
@[simp] theorem setSusp_pc (v : Suspension) : (s.setSusp v).pc = s.pc := rfl
@[simp] theorem setSusp_regs (v : Suspension) : (s.setSusp v).regs = s.regs := rfl
@[simp] theorem setSusp_stack (v : Suspension) : (s.setSusp v).stack = s.stack := rfl
@[simp] theorem setSusp_mem (v : Suspension) : (s.setSusp v).mem = s.mem := rfl
@[simp] theorem setSusp_fault (v : Suspension) : (s.setSusp v).fault = s.fault := rfl
@[simp] theorem setSusp_params (v : Suspension) : (s.setSusp v).params = s.params := rfl
@[simp] theorem setSusp_input (v : Suspension) : (s.setSusp v).input = s.input := rfl
@[simp] theorem setSusp_output (v : Suspension) : (s.setSusp v).output = s.output := rfl
@[simp] theorem setSusp_host (v : Suspension) : (s.setSusp v).host = s.host := rfl
@[simp] theorem setSusp_reg (v : Suspension) (q : Fin 8) : (s.setSusp v).reg q = s.reg q := rfl

/-! ### `emit` -/

@[simp] theorem emit_run (b : Byte) : (s.emit b).run = s.run := rfl
@[simp] theorem emit_susp (b : Byte) : (s.emit b).susp = s.susp := rfl
@[simp] theorem emit_pc (b : Byte) : (s.emit b).pc = s.pc := rfl
@[simp] theorem emit_regs (b : Byte) : (s.emit b).regs = s.regs := rfl
@[simp] theorem emit_stack (b : Byte) : (s.emit b).stack = s.stack := rfl
@[simp] theorem emit_mem (b : Byte) : (s.emit b).mem = s.mem := rfl
@[simp] theorem emit_fault (b : Byte) : (s.emit b).fault = s.fault := rfl
@[simp] theorem emit_params (b : Byte) : (s.emit b).params = s.params := rfl
@[simp] theorem emit_input (b : Byte) : (s.emit b).input = s.input := rfl
@[simp] theorem emit_output (b : Byte) : (s.emit b).output = s.output ++ [b] := rfl
@[simp] theorem emit_host (b : Byte) : (s.emit b).host = s.host := rfl
@[simp] theorem emit_reg (b : Byte) (q : Fin 8) : (s.emit b).reg q = s.reg q := rfl

/-! ### `setInput` -/

@[simp] theorem setInput_run (bs : List Byte) : (s.setInput bs).run = s.run := rfl
@[simp] theorem setInput_susp (bs : List Byte) : (s.setInput bs).susp = s.susp := rfl
@[simp] theorem setInput_pc (bs : List Byte) : (s.setInput bs).pc = s.pc := rfl
@[simp] theorem setInput_regs (bs : List Byte) : (s.setInput bs).regs = s.regs := rfl
@[simp] theorem setInput_stack (bs : List Byte) : (s.setInput bs).stack = s.stack := rfl
@[simp] theorem setInput_mem (bs : List Byte) : (s.setInput bs).mem = s.mem := rfl
@[simp] theorem setInput_fault (bs : List Byte) : (s.setInput bs).fault = s.fault := rfl
@[simp] theorem setInput_params (bs : List Byte) : (s.setInput bs).params = s.params := rfl
@[simp] theorem setInput_input (bs : List Byte) : (s.setInput bs).input = bs := rfl
@[simp] theorem setInput_output (bs : List Byte) : (s.setInput bs).output = s.output := rfl
@[simp] theorem setInput_host (bs : List Byte) : (s.setInput bs).host = s.host := rfl
@[simp] theorem setInput_reg (bs : List Byte) (q : Fin 8) : (s.setInput bs).reg q = s.reg q := rfl

/-! ### `setHost` -/

@[simp] theorem setHost_run (h : HostSide) : (s.setHost h).run = s.run := rfl
@[simp] theorem setHost_susp (h : HostSide) : (s.setHost h).susp = s.susp := rfl
@[simp] theorem setHost_pc (h : HostSide) : (s.setHost h).pc = s.pc := rfl
@[simp] theorem setHost_regs (h : HostSide) : (s.setHost h).regs = s.regs := rfl
@[simp] theorem setHost_stack (h : HostSide) : (s.setHost h).stack = s.stack := rfl
@[simp] theorem setHost_mem (h : HostSide) : (s.setHost h).mem = s.mem := rfl
@[simp] theorem setHost_fault (h : HostSide) : (s.setHost h).fault = s.fault := rfl
@[simp] theorem setHost_params (h : HostSide) : (s.setHost h).params = s.params := rfl
@[simp] theorem setHost_input (h : HostSide) : (s.setHost h).input = s.input := rfl
@[simp] theorem setHost_output (h : HostSide) : (s.setHost h).output = s.output := rfl
@[simp] theorem setHost_host (h : HostSide) : (s.setHost h).host = h := rfl
@[simp] theorem setHost_reg (h : HostSide) (q : Fin 8) : (s.setHost h).reg q = s.reg q := rfl

/-! ### `report` -/

@[simp] theorem report_run (x : Report) : (s.report x).run = s.run := rfl
@[simp] theorem report_susp (x : Report) : (s.report x).susp = s.susp := rfl
@[simp] theorem report_pc (x : Report) : (s.report x).pc = s.pc := rfl
@[simp] theorem report_regs (x : Report) : (s.report x).regs = s.regs := rfl
@[simp] theorem report_stack (x : Report) : (s.report x).stack = s.stack := rfl
@[simp] theorem report_mem (x : Report) : (s.report x).mem = s.mem := rfl
@[simp] theorem report_fault (x : Report) : (s.report x).fault = s.fault := rfl
@[simp] theorem report_params (x : Report) : (s.report x).params = s.params := rfl
@[simp] theorem report_input (x : Report) : (s.report x).input = s.input := rfl
@[simp] theorem report_output (x : Report) : (s.report x).output = s.output := rfl
@[simp] theorem report_host (x : Report) : (s.report x).host = { s.host with reports := s.host.reports ++ [x] } := rfl
@[simp] theorem report_reg (x : Report) (q : Fin 8) : (s.report x).reg q = s.reg q := rfl

/-! ### `raise` -/

@[simp] theorem raise_run (k : FaultKind) (op : Option Word) : (s.raise k op).run = .faulted := rfl
@[simp] theorem raise_susp (k : FaultKind) (op : Option Word) : (s.raise k op).susp = s.susp := rfl
@[simp] theorem raise_pc (k : FaultKind) (op : Option Word) : (s.raise k op).pc = s.pc := rfl
@[simp] theorem raise_regs (k : FaultKind) (op : Option Word) : (s.raise k op).regs = s.regs := rfl
@[simp] theorem raise_stack (k : FaultKind) (op : Option Word) : (s.raise k op).stack = s.stack := rfl
@[simp] theorem raise_mem (k : FaultKind) (op : Option Word) : (s.raise k op).mem = s.mem := rfl
@[simp] theorem raise_fault (k : FaultKind) (op : Option Word) : (s.raise k op).fault = some { kind := k, pc := s.pc, opcode := op } := rfl
@[simp] theorem raise_params (k : FaultKind) (op : Option Word) : (s.raise k op).params = s.params := rfl
@[simp] theorem raise_input (k : FaultKind) (op : Option Word) : (s.raise k op).input = s.input := rfl
@[simp] theorem raise_output (k : FaultKind) (op : Option Word) : (s.raise k op).output = s.output := rfl
@[simp] theorem raise_host (k : FaultKind) (op : Option Word) : (s.raise k op).host = s.host := rfl
@[simp] theorem raise_reg (k : FaultKind) (op : Option Word) (q : Fin 8) : (s.raise k op).reg q = s.reg q := rfl

/-! ### `restore` -/

@[simp] theorem restore_run (x : Snapshot) : (s.restore x).run = s.run := rfl
@[simp] theorem restore_susp (x : Snapshot) : (s.restore x).susp = s.susp := rfl
@[simp] theorem restore_pc (x : Snapshot) : (s.restore x).pc = x.pc := rfl
@[simp] theorem restore_regs (x : Snapshot) : (s.restore x).regs = x.regs := rfl
@[simp] theorem restore_stack (x : Snapshot) : (s.restore x).stack = x.stack := rfl
@[simp] theorem restore_mem (x : Snapshot) : (s.restore x).mem = x.mem := rfl
@[simp] theorem restore_fault (x : Snapshot) : (s.restore x).fault = s.fault := rfl
@[simp] theorem restore_params (x : Snapshot) : (s.restore x).params = s.params := rfl
@[simp] theorem restore_input (x : Snapshot) : (s.restore x).input = s.input := rfl
@[simp] theorem restore_output (x : Snapshot) : (s.restore x).output = s.output := rfl
@[simp] theorem restore_host (x : Snapshot) : (s.restore x).host = s.host := rfl

/-! ### Registers -/

/-- Reading the register just written. -/
@[simp] theorem setReg_reg_same (r : Fin 8) (v : Word) : (s.setReg r v).reg r = v := by
  simp [reg, setReg]

/-- Reading another register. -/
theorem setReg_reg_other {r q : Fin 8} (v : Word) (h : q ≠ r) : (s.setReg r v).reg q = s.reg q := by
  have hne : r.val ≠ q.val := fun e => h (Fin.ext e.symm)
  simp [reg, setReg, hne]

/-- Reading any register after one is written. -/
theorem setReg_reg (r q : Fin 8) (v : Word) : (s.setReg r v).reg q = if q = r then v else s.reg q := by
  by_cases h : q = r
  · subst h; simp
  · simp [h, setReg_reg_other s v h]

/-- Reading a register after a restore. -/
@[simp] theorem restore_reg (x : Snapshot) (q : Fin 8) : (s.restore x).reg q = x.regs[q.val] := rfl

/-- Every register of the constructed state is 0. -/
@[simp] theorem construct_reg (p : Params) (m : Memory) (q : Fin 8) : (State.construct p m).reg q = 0 := by
  simp [State.construct, reg]

end Sys2Proof.Machine.State
end

