-- ==== Sys2Proof/Laws/Operands.lean ====
section
/-! SUPPORT. What each shared operation answers, and exactly when: one lemma an operation, which later proofs cite instead of
unfolding it. -/

namespace Sys2Proof.Machine

/-- A destination resolves exactly when it is a register reference (`30_encoding.md` R75). -/
@[simp] theorem destination_eq_ok {a : Operand} {d : Fin 8} : destination a = .ok d ↔ a = .reg d := by
  cases a <;> simp [destination]

/-- A destination that does not resolve raises InvalidDestination (R75). -/
theorem destination_eq_error {a : Operand} {k : FaultKind} (h : destination a = .error k) :
    k = .invalidDestination ∧ ∀ r, a ≠ .reg r := by
  cases a <;> simp_all [destination]

namespace State

/-- A value that does not resolve raises InvalidOperand (`30_encoding.md` R74). -/
theorem resolve_eq_error {s : State} {a : Operand} {k : FaultKind} (h : s.resolve a = .error k) :
    k = .invalidOperand ∧ ∃ w, a = .invalid w := by
  cases a <;> simp_all [resolve]

/-- A resolved value is a Word when the registers hold Words (R74). -/
theorem isWord_of_resolve {s : State} (hs : ∀ r, IsWord (s.reg r)) {a : Operand} {v : Word} (h : s.resolve a = .ok v) :
    IsWord v := by
  cases a with
  | lit n =>
    simp only [resolve, Except.ok.injEq] at h
    subst h
    simp only [IsWord, BitVec.toNat_setWidth]
    omega
  | reg r =>
    simp only [resolve, Except.ok.injEq] at h
    exact h ▸ hs r
  | invalid w => simp [resolve] at h

/-- A handler ends in its own state, or in the fault it raised (`30_encoding.md` R84). -/
theorem finish_eq_next {s t : State} {op : Word} {e : Except FaultKind State} :
    s.finish op e = .next t ↔ e = .ok t ∨ ∃ k, e = .error k ∧ t = s.raise k (some op) := by
  cases e <;> simp [finish, eq_comm]

/-- A handler always ends in a next state. -/
theorem finish_total (s : State) (op : Word) (e : Except FaultKind State) : ∃ t, s.finish op e = .next t := by
  cases e <;> exact ⟨_, rfl⟩

/-- The handler that writes a register from one value, when it raises nothing. -/
theorem writeUnary_eq_ok {s t : State} {a b : Operand} {f : Word → Except FaultKind Word} :
    s.writeUnary a b f = .ok t ↔
      ∃ d vb v, a = .reg d ∧ s.resolve b = .ok vb ∧ f vb = .ok v ∧ t = (s.setReg d v).advance 2 := by
  unfold writeUnary
  cases a with
  | reg d =>
    cases hb : s.resolve b with
    | ok vb => cases hf : f vb <;> simp [destination, bind, Except.bind, pure, Except.pure, hf, eq_comm]
    | error k => simp [destination, bind, Except.bind]
  | lit _ => simp [destination, bind, Except.bind]
  | invalid _ => simp [destination, bind, Except.bind]

/-- The handler that writes a register from two values, when it raises nothing. -/
theorem writeBinary_eq_ok {s t : State} {a b c : Operand} {f : Word → Word → Except FaultKind Word} :
    s.writeBinary a b c f = .ok t ↔
      ∃ d vb vc v, a = .reg d ∧ s.resolve b = .ok vb ∧ s.resolve c = .ok vc ∧ f vb vc = .ok v ∧
        t = (s.setReg d v).advance 3 := by
  unfold writeBinary
  cases a with
  | reg d =>
    cases hb : s.resolve b with
    | ok vb =>
      cases hc : s.resolve c with
      | ok vc => cases hf : f vb vc <;> simp [destination, bind, Except.bind, pure, Except.pure, hf, eq_comm]
      | error k => simp [destination, bind, Except.bind]
    | error k => simp [destination, bind, Except.bind]
  | lit _ => simp [destination, bind, Except.bind]
  | invalid _ => simp [destination, bind, Except.bind]

/-- A conditional jump, when it raises nothing: taken to the resolved target, or past the instruction. -/
theorem jumpIf_eq_ok {s t : State} {p : Word → Bool} {a b : Operand} :
    s.jumpIf p a b = .ok t ↔
      ∃ v, s.resolve a = .ok v ∧
        ((p v = true ∧ ∃ u, s.resolve b = .ok u ∧ t = s.setPc u.toNat) ∨ (p v = false ∧ t = s.advance 2)) := by
  unfold jumpIf
  cases s.resolve a with
  | error k => simp [bind, Except.bind]
  | ok v =>
    cases hp : p v <;> cases s.resolve b <;>
      simp only [bind, Except.bind, pure, Except.pure, hp, ↓reduceIte, Except.ok.injEq, Bool.false_eq_true, reduceCtorEq,
        exists_eq_left', false_and, true_and, false_or, or_false, exists_false, eq_comm]

/-- A push puts the value on top, or finds the stack full (`10_state.md` R33). -/
theorem push_eq_ok {s t : State} {v : Word} :
    s.push v = .ok t ↔ s.stackFull = false ∧ t = s.setStack (s.stack ++ [v]) := by
  unfold push
  cases s.stackFull <;> simp [eq_comm]

/-- A push on a full stack raises StackOverflow (`60_exceptions.md` R200). -/
theorem push_full {s : State} (v : Word) (h : s.stackFull = true) : s.push v = .error .stackOverflow := by
  simp [push, h]

/-- When a push finds the stack full. -/
theorem stackFull_iff {s : State} :
    s.stackFull = true ↔ ∃ limit, s.params.stackLimit = some limit ∧ limit ≤ s.stack.length := by
  unfold stackFull
  cases s.params.stackLimit <;> simp

/-- When a push does not find the stack full. -/
theorem stackFull_eq_false {s : State} :
    s.stackFull = false ↔ ∀ limit, s.params.stackLimit = some limit → s.stack.length < limit := by
  unfold stackFull
  cases s.params.stackLimit <;> simp

/-- A pop takes the top element (`10_state.md` R33). -/
theorem popTop_eq_some {s t : State} {v : Word} :
    s.popTop = some (v, t) ↔ ∃ st, s.stack = st ++ [v] ∧ t = s.setStack st := by
  unfold popTop
  rcases List.eq_nil_or_concat s.stack with h | ⟨st, w, h⟩
  · simp [h]
  · simp only [h, List.concat_eq_append, List.getLast?_append, List.getLast?_singleton, Option.some_or,
      List.dropLast_concat, Option.some.injEq, Prod.mk.injEq]
    constructor
    · rintro ⟨rfl, rfl⟩
      exact ⟨st, rfl, rfl⟩
    · rintro ⟨st', h', rfl⟩
      obtain ⟨rfl, hv⟩ := List.append_inj' h' rfl
      cases hv
      exact ⟨rfl, rfl⟩

/-- A pop finds nothing exactly on an empty stack (`10_state.md` R34). -/
theorem popTop_eq_none {s : State} : s.popTop = none ↔ s.stack = [] := by
  unfold popTop
  cases h : s.stack.getLast? with
  | none => simpa using h
  | some v =>
    have : s.stack ≠ [] := fun e => by simp [e] at h
    simp [this]

/-- A read gives the cell's word (`20_memory.md` R53). -/
theorem readMem_eq_ok {s : State} {a : Nat} {w : Word} : s.readMem a = .ok w ↔ s.mem.read a = some w := by
  unfold readMem
  cases s.mem.read a <;> simp

/-- A write changes one cell of memory (`20_memory.md` R54). -/
theorem writeMem_eq_ok {s t : State} {a : Nat} {v : Word} :
    s.writeMem a v = .ok t ↔ a < s.mem.size ∧ t = s.setMem (s.mem.setCell a v) := by
  unfold writeMem
  cases h : s.mem.write a v with
  | none =>
    have hge := Memory.write_eq_none.1 h
    simp only [reduceCtorEq, false_iff, not_and]
    intro hlt
    omega
  | some m =>
    obtain ⟨ha, rfl⟩ := Memory.write_eq_some.1 h
    simp [ha, eq_comm]

end State

end Sys2Proof.Machine
end

