-- ==== Sys2Proof/Laws/Exec.lean ====
section
/-! SUPPORT. Everything an instruction can do: if `exec` answers a next state, that state is one of the cases of `Effect`. Later
proofs about all instructions go through `exec_effect` and do not unfold the meanings. -/

namespace Sys2Proof.Machine

/-! ### Results are Words -/

/-- A comparison gives 0 or 1. -/
theorem truthWord_cases (p : Bool) : truthWord p = 0 ∨ truthWord p = 1 := by cases p <;> simp [truthWord]

/-- The value of a sum (`44_arithmetic.md` R140). -/
theorem addWord_toNat (vb vc : Word) : (addWord vb vc).toNat = (vb.toNat + vc.toNat) % 32768 := by
  simp only [addWord, BitVec.toNat_ofNat]
  omega

/-- The value of a product (R141). -/
theorem multWord_toNat (vb vc : Word) : (multWord vb vc).toNat = (vb.toNat * vc.toNat) % 32768 := by
  simp only [multWord, BitVec.toNat_ofNat]
  omega

/-- The value of a remainder (R142). -/
theorem modWord_eq_ok {vb vc v : Word} (h : modWord vb vc = .ok v) :
    vc.toNat ≠ 0 ∧ v.toNat = vb.toNat % vc.toNat := by
  simp only [modWord] at h
  split at h
  · cases h
  · rename_i hc
    cases h
    refine ⟨hc, ?_⟩
    have := Nat.mod_lt vb.toNat (Nat.pos_of_ne_zero hc)
    simp only [BitVec.toNat_ofNat]
    omega

/-- Masking to 15 bits is reduction modulo 32768. -/
theorem mask15_toNat (w : Word) : (w &&& 0x7FFF).toNat = w.toNat % 32768 := by
  rw [BitVec.toNat_and]
  exact Nat.and_two_pow_sub_one_eq_mod w.toNat 15

/-- The value of a 15-bit complement (`45_logic.md` R152). -/
theorem notWord_toNat (vb : Word) : (notWord vb).toNat = 32767 - vb.toNat % 32768 := by
  rw [notWord, mask15_toNat, BitVec.toNat_not]
  omega

/-- What `rmem` brings is the cell's word, at most 32775 (`46_memory_access.md` R160). -/
theorem loadWord_eq_ok {s : State} {addr v : Word} :
    loadWord s addr = .ok v ↔ s.mem.read addr.toNat = some v ∧ IsWord v := by
  unfold loadWord
  cases h : s.readMem addr.toNat with
  | error k =>
    have : ∀ w, s.mem.read addr.toNat ≠ some w := fun w hw => by rw [State.readMem_eq_ok.2 hw] at h; cases h
    simp [bind, Except.bind, this]
  | ok w =>
    rw [State.readMem_eq_ok] at h
    simp only [bind, Except.bind, h, Option.some.injEq]
    split
    · rename_i hw
      simp only [reduceCtorEq, false_iff, not_and]
      rintro rfl hv
      simp only [IsWord] at hv
      omega
    · rename_i hw
      simp only [Except.ok.injEq]
      constructor
      · rintro rfl
        exact ⟨rfl, by simp only [IsWord]; omega⟩
      · rintro ⟨rfl, -⟩
        rfl

/-- The word of a console byte is a Word. -/
theorem isWord_byte (c : Byte) : IsWord (c.setWidth 16) := by
  simp only [IsWord, BitVec.toNat_setWidth]
  omega

/-- Registers hold Words after a Word is written to one. -/
theorem State.setReg_isWord {s : State} (h : ∀ r, IsWord (s.reg r)) (d : Fin 8) {v : Word} (hv : IsWord v) :
    ∀ r, IsWord ((s.setReg d v).reg r) := by
  intro r
  rw [State.setReg_reg]
  split
  · exact hv
  · exact h r

/-! ### The effect of an instruction -/

/-- The next states of an instruction `i` in a state `s`. -/
inductive Effect (i : Instr) (s : State) : State → Prop where
  /-- A fault (`60_exceptions.md` R203). -/
  | raised (k : FaultKind) : Effect i s (s.raise k (some i.opcode))
  /-- `halt`, or `ret` on an empty stack. -/
  | stopped (h : i = .halt ∨ (i = .ret ∧ s.stack = [])) : Effect i s s.stop
  /-- A result written to the destination register: a Word, and a literal but for `set`, `rmem` and `mod`. -/
  | wrote (d : Fin 8) (v : Word) (k : Nat) (hi : i.destReg = some d) (hn : ∀ a, i ≠ .pop a ∧ i ≠ .inp a)
      (hk : i.operands.length = k) (hv : (∀ r, IsWord (s.reg r)) → IsWord v)
      (hl : (∃ a b, i = .set a b ∨ i = .rmem a b) ∨ (∃ a b c, i = .mod a b c) ∨ v.toNat ≤ 32767) :
      Effect i s ((s.setReg d v).advance k)
  /-- `pop`. -/
  | popped (d : Fin 8) (v : Word) (st : List Word) (hi : i = .pop (.reg d)) (hs : s.stack = st ++ [v]) :
      Effect i s (((s.setStack st).setReg d v).advance 1)
  /-- `push`. -/
  | pushed (a : Operand) (v : Word) (hi : i = .push a) (ha : s.resolve a = .ok v) (hf : s.stackFull = false) :
      Effect i s ((s.setStack (s.stack ++ [v])).advance 1)
  /-- A jump taken, to a resolved operand. -/
  | jumped (a : Operand) (t : Word) (hi : i = .jmp a ∨ ∃ c, i = .jt c a ∨ i = .jf c a) (ha : s.resolve a = .ok t) :
      Effect i s (s.setPc t.toNat)
  /-- `noop`, or a jump not taken. -/
  | passed (k : Nat) (hi : i = .noop ∨ ∃ a b, i = .jt a b ∨ i = .jf a b) (hk : i.operands.length = k) :
      Effect i s (s.advance k)
  /-- `call`. -/
  | called (a : Operand) (t : Word) (hi : i = .call a) (ha : s.resolve a = .ok t) (hf : s.stackFull = false) :
      Effect i s ((s.setStack (s.stack ++ [BitVec.ofNat 16 (s.pc + 2)])).setPc t.toNat)
  /-- `ret`. -/
  | returned (t : Word) (st : List Word) (hi : i = .ret) (hs : s.stack = st ++ [t]) :
      Effect i s ((s.setStack st).setPc t.toNat)
  /-- `wmem`. -/
  | stored (a b : Operand) (addr v : Word) (hi : i = .wmem a b) (ha : s.resolve a = .ok addr) (hb : s.resolve b = .ok v)
      (hn : addr.toNat < s.mem.size) : Effect i s ((s.setMem (s.mem.setCell addr.toNat v)).advance 2)
  /-- `out`. -/
  | sent (a : Operand) (v : Word) (hi : i = .out a) (ha : s.resolve a = .ok v) : Effect i s ((s.emit (charOf v)).advance 1)
  /-- `in`, taking a byte. -/
  | took (d : Fin 8) (c : Byte) (rest : List Byte) (hi : i = .inp (.reg d)) (hs : s.input = c :: rest)
      (hc : c ≠ s.params.sentinel) : Effect i s (((s.setInput rest).setReg d (c.setWidth 16)).advance 1)
  /-- `in`, taking the sentinel. -/
  | suspended (d : Fin 8) (rest : List Byte) (hi : i = .inp (.reg d)) (hs : s.input = s.params.sentinel :: rest) :
      Effect i s ((s.setInput rest).setSusp .debug)

/-- The effect of an instruction that ends in `finish`, from the effect of its handler. -/
theorem Effect.of_finish {i : Instr} {s t : State} {op : Word} {e : Except FaultKind State} (hop : i.opcode = op)
    (h : s.finish op e = .next t) (he : ∀ u, e = .ok u → Effect i s u) : Effect i s t := by
  rcases State.finish_eq_next.1 h with h | ⟨k, -, rfl⟩
  · exact he t h
  · exact hop ▸ .raised k

/-- The effect of an instruction that writes a register from one value. -/
theorem Effect.of_writeUnary {i : Instr} {s t : State} {op : Word} {a b : Operand} {f : Word → Except FaultKind Word}
    (hop : i.opcode = op) (hd : i.dest = some a) (hn : ∀ a, i ≠ .pop a ∧ i ≠ .inp a) (hk : i.operands.length = 2)
    (hf : ∀ vb v, s.resolve b = .ok vb → f vb = .ok v → ((∀ r, IsWord (s.reg r)) → IsWord v) ∧
      ((∃ a b, i = .set a b ∨ i = .rmem a b) ∨ v.toNat ≤ 32767))
    (h : s.finish op (s.writeUnary a b f) = .next t) : Effect i s t := by
  refine .of_finish hop h fun u hu => ?_
  obtain ⟨d, vb, v, rfl, hb, hv, rfl⟩ := State.writeUnary_eq_ok.1 hu
  obtain ⟨hw, hl⟩ := hf vb v hb hv
  exact .wrote d v 2 (by simp [Instr.destReg, hd]) hn hk hw (hl.imp_right .inr)

/-- The effect of an instruction that writes a register from two values. -/
theorem Effect.of_writeBinary {i : Instr} {s t : State} {op : Word} {a b c : Operand}
    {f : Word → Word → Except FaultKind Word} (hop : i.opcode = op) (hd : i.dest = some a)
    (hn : ∀ a, i ≠ .pop a ∧ i ≠ .inp a) (hk : i.operands.length = 3)
    (hf : ∀ vb vc v, s.resolve b = .ok vb → f vb vc = .ok v → ((∀ r, IsWord (s.reg r)) → IsWord v) ∧
      ((∃ a b c, i = .mod a b c) ∨ v.toNat ≤ 32767))
    (h : s.finish op (s.writeBinary a b c f) = .next t) : Effect i s t := by
  refine .of_finish hop h fun u hu => ?_
  obtain ⟨d, vb, vc, v, rfl, hb, -, hv, rfl⟩ := State.writeBinary_eq_ok.1 hu
  obtain ⟨hw, hl⟩ := hf vb vc v hb hv
  exact .wrote d v 3 (by simp [Instr.destReg, hd]) hn hk hw (.inr hl)

/-- A result reduced modulo 32768 is a literal, and so a Word. -/
theorem literal_of_mod {w : Word} {n : Nat} (h : w.toNat = n % 32768) : IsWord w ∧ w.toNat ≤ 32767 := by
  simp only [IsWord]
  omega

/-- A comparison's result is a literal, and so a Word. -/
theorem literal_truthWord (p : Bool) : IsWord (truthWord p) ∧ (truthWord p).toNat ≤ 32767 := by cases p <;> decide

/-- The effect of a conditional jump. -/
theorem Effect.of_jumpIf {i : Instr} {s t : State} {op : Word} {p : Word → Bool} {a b : Operand} (hop : i.opcode = op)
    (hi : i = .jt a b ∨ i = .jf a b) (h : s.finish op (s.jumpIf p a b) = .next t) : Effect i s t := by
  refine .of_finish hop h fun u hu => ?_
  obtain ⟨v, -, ⟨-, w, hb, rfl⟩ | ⟨-, rfl⟩⟩ := State.jumpIf_eq_ok.1 hu
  · exact .jumped b w (.inr ⟨a, hi⟩) hb
  · exact .passed 2 (.inr ⟨a, b, hi⟩) (by rcases hi with rfl | rfl <;> rfl)

/-- Everything an instruction can do when it gives a next state. -/
theorem exec_effect {i : Instr} {s t : State} (h : exec i s = .next t) : Effect i s t := by
  cases i with
  | halt => cases h; exact .stopped (.inl rfl)
  | noop => cases h; exact .passed 0 (.inl rfl) rfl
  | set a b =>
    refine .of_writeUnary rfl rfl (by simp) rfl (fun vb v hb hv => ?_) h
    cases hv
    exact ⟨fun hs => State.isWord_of_resolve hs hb, .inl ⟨a, b, .inl rfl⟩⟩
  | eq a b c =>
    refine .of_writeBinary rfl rfl (by simp) rfl (fun vb vc v _ hv => ?_) h
    cases hv
    exact ⟨fun _ => (literal_truthWord _).1, .inr (literal_truthWord _).2⟩
  | gt a b c =>
    refine .of_writeBinary rfl rfl (by simp) rfl (fun vb vc v _ hv => ?_) h
    cases hv
    exact ⟨fun _ => (literal_truthWord _).1, .inr (literal_truthWord _).2⟩
  | add a b c =>
    refine .of_writeBinary rfl rfl (by simp) rfl (fun vb vc v _ hv => ?_) h
    cases hv
    have hl := literal_of_mod (addWord_toNat vb vc)
    exact ⟨fun _ => hl.1, .inr hl.2⟩
  | mult a b c =>
    refine .of_writeBinary rfl rfl (by simp) rfl (fun vb vc v _ hv => ?_) h
    cases hv
    have hl := literal_of_mod (multWord_toNat vb vc)
    exact ⟨fun _ => hl.1, .inr hl.2⟩
  | mod a b c =>
    refine .of_writeBinary rfl rfl (by simp) rfl (fun vb vc v hb hv => ⟨fun hs => ?_, .inl ⟨a, b, c, rfl⟩⟩) h
    obtain ⟨-, hv⟩ := modWord_eq_ok hv
    have := State.isWord_of_resolve hs hb
    have := Nat.mod_le vb.toNat vc.toNat
    simp only [IsWord] at *
    omega
  | and a b c =>
    refine .of_writeBinary rfl rfl (by simp) rfl (fun vb vc v _ hv => ?_) h
    cases hv
    have hl := literal_of_mod (mask15_toNat (vb &&& vc))
    exact ⟨fun _ => hl.1, .inr hl.2⟩
  | or a b c =>
    refine .of_writeBinary rfl rfl (by simp) rfl (fun vb vc v _ hv => ?_) h
    cases hv
    have hl := literal_of_mod (mask15_toNat (vb ||| vc))
    exact ⟨fun _ => hl.1, .inr hl.2⟩
  | not a b =>
    refine .of_writeUnary rfl rfl (by simp) rfl (fun vb v _ hv => ?_) h
    cases hv
    have hl := literal_of_mod (mask15_toNat (~~~vb))
    exact ⟨fun _ => hl.1, .inr hl.2⟩
  | rmem a b =>
    exact .of_writeUnary rfl rfl (by simp) rfl
      (fun vb v _ hv => ⟨fun _ => (loadWord_eq_ok.1 hv).2, .inl ⟨a, b, .inr rfl⟩⟩) h
  | jt a b => exact .of_jumpIf rfl (.inl rfl) h
  | jf a b => exact .of_jumpIf rfl (.inr rfl) h
  | push a =>
    refine .of_finish rfl h fun u hu => ?_
    cases ha : s.resolve a with
    | error k => simp [ha, bind, Except.bind] at hu
    | ok v =>
      cases hp : s.push v with
      | error k => simp [ha, hp, bind, Except.bind] at hu
      | ok w =>
        obtain ⟨hf, rfl⟩ := State.push_eq_ok.1 hp
        simp only [ha, hp, bind, Except.bind, pure, Except.pure, Except.ok.injEq] at hu
        exact hu ▸ .pushed a v rfl ha hf
  | pop a =>
    refine .of_finish rfl h fun u hu => ?_
    cases ha : destination a with
    | error k => simp [ha, bind, Except.bind] at hu
    | ok d =>
      rw [destination_eq_ok] at ha
      subst ha
      cases hp : s.popTop with
      | none => simp [destination, hp, bind, Except.bind] at hu
      | some vt =>
        obtain ⟨v, w⟩ := vt
        obtain ⟨st, hs, rfl⟩ := State.popTop_eq_some.1 hp
        simp only [destination, hp, bind, Except.bind, pure, Except.pure, Except.ok.injEq] at hu
        exact hu ▸ .popped d v st rfl hs
  | jmp a =>
    refine .of_finish rfl h fun u hu => ?_
    cases ha : s.resolve a with
    | error k => simp [ha, bind, Except.bind] at hu
    | ok v =>
      simp only [ha, bind, Except.bind, pure, Except.pure, Except.ok.injEq] at hu
      exact hu ▸ .jumped a v (.inl rfl) ha
  | call a =>
    refine .of_finish rfl h fun u hu => ?_
    cases ha : s.resolve a with
    | error k => simp [ha, bind, Except.bind] at hu
    | ok v =>
      cases hp : s.push (BitVec.ofNat 16 (s.next 1)) with
      | error k => simp [ha, hp, bind, Except.bind] at hu
      | ok w =>
        obtain ⟨hf, rfl⟩ := State.push_eq_ok.1 hp
        simp only [ha, hp, bind, Except.bind, pure, Except.pure, Except.ok.injEq] at hu
        exact hu ▸ .called a v rfl ha hf
  | ret =>
    simp only [exec, execRet] at h
    split at h
    · rename_i hp
      cases h
      exact .stopped (.inr ⟨rfl, State.popTop_eq_none.1 hp⟩)
    · rename_i v w hp
      obtain ⟨st, hs, rfl⟩ := State.popTop_eq_some.1 hp
      cases h
      exact .returned v st rfl hs
  | wmem a b =>
    refine .of_finish rfl h fun u hu => ?_
    cases ha : s.resolve a with
    | error k => simp [ha, bind, Except.bind] at hu
    | ok addr =>
      cases hb : s.resolve b with
      | error k => simp [ha, hb, bind, Except.bind] at hu
      | ok v =>
        cases hp : s.writeMem addr.toNat v with
        | error k => simp [ha, hb, hp, bind, Except.bind] at hu
        | ok w =>
          obtain ⟨hn, rfl⟩ := State.writeMem_eq_ok.1 hp
          simp only [ha, hb, hp, bind, Except.bind, pure, Except.pure, Except.ok.injEq] at hu
          exact hu ▸ .stored a b addr v rfl ha hb hn
  | out a =>
    refine .of_finish rfl h fun u hu => ?_
    cases ha : s.resolve a with
    | error k => simp [ha, bind, Except.bind] at hu
    | ok v =>
      simp only [ha, bind, Except.bind, pure, Except.pure, Except.ok.injEq] at hu
      exact hu ▸ .sent a v rfl ha
  | inp a =>
    simp only [exec, execInp] at h
    split at h
    · cases h
      exact .raised _
    · rename_i d hd
      rw [destination_eq_ok] at hd
      subst hd
      split at h
      · cases h
      · rename_i c rest hs
        split at h
        · rename_i hc
          cases h
          exact .suspended d rest rfl (hc ▸ hs)
        · rename_i hc
          cases h
          exact .took d c rest rfl hs hc

/-! ### How an instruction can stop -/

/-- Every handler that ends in `finish` gives a next state: an instruction stops only as an `in` with a valid destination and no
byte (`60_exceptions.md` R227). -/
theorem exec_stops_only_waiting (i : Instr) (s : State) :
    (∃ t, exec i s = .next t) ∨
      (exec i s = .fault .waitingForInput ∧ s.input = [] ∧ ∃ d, i = .inp (.reg d)) := by
  cases i with
  | halt => exact .inl ⟨_, rfl⟩
  | noop => exact .inl ⟨_, rfl⟩
  | ret =>
    simp only [exec, execRet]
    split <;> exact .inl ⟨_, rfl⟩
  | inp a =>
    simp only [exec, execInp]
    split
    · exact .inl (s.finish_total _ _)
    · rename_i d hd
      rw [destination_eq_ok] at hd
      subst hd
      split
      · rename_i hi
        exact .inr ⟨rfl, hi, d, rfl⟩
      · split <;> exact .inl ⟨_, rfl⟩
  | _ => exact .inl (s.finish_total _ _)

end Sys2Proof.Machine
end

