-- ==== Sys2Proof/Laws/PerInstr.lean ====
section
/-! SUPPORT. Facts of an instruction as syntax, one lemma per constructor. -/

namespace Sys2Proof.Laws.EncodedLength

/-- An instruction is its opcode word and the operand words its opcode asks for, 1 to 4 words in all (`30_encoding.md` R70, R77,
R80). -/
def Statement (i : Instr) : Prop :=
  (encode i).length = 1 + i.operands.length ∧ (encode i).length ≤ longestInstr ∧
    operandCount i.opcode.toNat = some ((encode i).length - 1)

theorem halt : Statement .halt := ⟨rfl, by decide, rfl⟩
theorem set (a b : Operand) : Statement (.set a b) := ⟨rfl, Nat.le_of_ble_eq_true rfl, rfl⟩
theorem push (a : Operand) : Statement (.push a) := ⟨rfl, Nat.le_of_ble_eq_true rfl, rfl⟩
theorem pop (a : Operand) : Statement (.pop a) := ⟨rfl, Nat.le_of_ble_eq_true rfl, rfl⟩
theorem eq (a b c : Operand) : Statement (.eq a b c) := ⟨rfl, Nat.le_of_ble_eq_true rfl, rfl⟩
theorem gt (a b c : Operand) : Statement (.gt a b c) := ⟨rfl, Nat.le_of_ble_eq_true rfl, rfl⟩
theorem jmp (a : Operand) : Statement (.jmp a) := ⟨rfl, Nat.le_of_ble_eq_true rfl, rfl⟩
theorem jt (a b : Operand) : Statement (.jt a b) := ⟨rfl, Nat.le_of_ble_eq_true rfl, rfl⟩
theorem jf (a b : Operand) : Statement (.jf a b) := ⟨rfl, Nat.le_of_ble_eq_true rfl, rfl⟩
theorem add (a b c : Operand) : Statement (.add a b c) := ⟨rfl, Nat.le_of_ble_eq_true rfl, rfl⟩
theorem mult (a b c : Operand) : Statement (.mult a b c) := ⟨rfl, Nat.le_of_ble_eq_true rfl, rfl⟩
theorem mod (a b c : Operand) : Statement (.mod a b c) := ⟨rfl, Nat.le_of_ble_eq_true rfl, rfl⟩
theorem and (a b c : Operand) : Statement (.and a b c) := ⟨rfl, Nat.le_of_ble_eq_true rfl, rfl⟩
theorem or (a b c : Operand) : Statement (.or a b c) := ⟨rfl, Nat.le_of_ble_eq_true rfl, rfl⟩
theorem not (a b : Operand) : Statement (.not a b) := ⟨rfl, Nat.le_of_ble_eq_true rfl, rfl⟩
theorem rmem (a b : Operand) : Statement (.rmem a b) := ⟨rfl, Nat.le_of_ble_eq_true rfl, rfl⟩
theorem wmem (a b : Operand) : Statement (.wmem a b) := ⟨rfl, Nat.le_of_ble_eq_true rfl, rfl⟩
theorem call (a : Operand) : Statement (.call a) := ⟨rfl, Nat.le_of_ble_eq_true rfl, rfl⟩
theorem ret : Statement .ret := ⟨rfl, by decide, rfl⟩
theorem out (a : Operand) : Statement (.out a) := ⟨rfl, Nat.le_of_ble_eq_true rfl, rfl⟩
theorem inp (a : Operand) : Statement (.inp a) := ⟨rfl, Nat.le_of_ble_eq_true rfl, rfl⟩
theorem noop : Statement .noop := ⟨rfl, by decide, rfl⟩

end Sys2Proof.Laws.EncodedLength
end

