-- ==== Sys2Proof/Laws/Text.lean ====
section
/-! SUPPORT. Lines, tokens, and decimal numbers printed and read back. -/

namespace Sys2Proof.Machine

/-! ### Lines -/

/-- A line ends at the first byte 10 (`60_exceptions.md` R215). -/
theorem splitLine_of_newline {line : Line} {rest : List Byte} {nl : Byte} (hl : ∀ b ∈ line, b.toNat ≠ 10)
    (hn : nl.toNat = 10) : splitLine (line ++ nl :: rest) = some (line, rest) := by
  induction line with
  | nil => simp [splitLine, hn]
  | cons b bs ih =>
    simp only [List.cons_append, splitLine]
    rw [if_neg (hl b (by simp)), ih fun c hc => hl c (by simp [hc])]

/-- There is no line exactly while there is no byte 10 (R215). -/
theorem splitLine_eq_none {bs : List Byte} : splitLine bs = none ↔ ∀ b ∈ bs, b.toNat ≠ 10 := by
  induction bs with
  | nil => simp [splitLine]
  | cons b bs ih =>
    simp only [splitLine]
    split
    · rename_i h
      simp [h]
    · rename_i h
      split
      · rename_i hs
        simp only [reduceCtorEq, false_iff]
        intro hall
        rw [ih.2 fun c hc => hall c (by simp [hc])] at hs
        cases hs
      · rename_i hs
        simpa [h] using ih.1 hs

/-- A line found is the input up to a byte 10, and the rest is what follows that byte (R215). -/
theorem splitLine_eq_some {bs line rest : List Byte} (h : splitLine bs = some (line, rest)) :
    ∃ nl : Byte, nl.toNat = 10 ∧ bs = line ++ nl :: rest := by
  induction bs generalizing line with
  | nil => cases h
  | cons b bs ih =>
    simp only [splitLine] at h
    split at h
    · rename_i hb
      cases h
      exact ⟨b, hb, rfl⟩
    · split at h
      · rename_i l r hl
        cases h
        obtain ⟨nl, h1, h2⟩ := ih hl
        exact ⟨nl, h1, by simp [h2]⟩
      · cases h

/-! ### Tokens -/

/-- Bytes that are no white space extend the token being read. -/
theorem tokensFrom_append {t : Line} (h : ∀ b ∈ t, isSpace b = false) (cur bs : Line) :
    tokensFrom cur (t ++ bs) = tokensFrom (cur ++ t) bs := by
  induction t generalizing cur with
  | nil => simp
  | cons b t ih =>
    rw [List.cons_append, tokensFrom, if_neg (by simp [h b]), ih (fun c hc => h c (by simp [hc]))]
    simp

/-- The tokens of one token. -/
theorem tokens_single {t : Line} (h : ∀ b ∈ t, isSpace b = false) (hn : t ≠ []) : tokens t = [t] := by
  have := tokensFrom_append h [] []
  rw [List.append_nil, List.nil_append] at this
  rw [tokens, this, tokensFrom, consToken]
  simp [hn]

/-- The tokens of a token, a white space byte, and more. -/
theorem tokens_cons {t : Line} (h : ∀ b ∈ t, isSpace b = false) (hn : t ≠ []) {sp : Byte} (hsp : isSpace sp = true)
    (bs : Line) : tokens (t ++ sp :: bs) = t :: tokens bs := by
  rw [tokens, tokensFrom_append h, List.nil_append, tokensFrom, if_pos hsp, consToken, tokens]
  simp [hn]

/-- White space alone holds no token. -/
theorem tokens_of_spaces {bs : Line} (h : ∀ b ∈ bs, isSpace b = true) : tokens bs = [] := by
  induction bs with
  | nil => rfl
  | cons b bs ih =>
    rw [tokens, tokensFrom, if_pos (h b (by simp))]
    exact ih fun c hc => h c (by simp [hc])

/-! ### Decimal numbers -/

/-- A printed digit is no white space. -/
theorem isSpace_digitByte {n : Nat} (h : n < 10) : isSpace (digitByte n) = false := by
  interval_cases n <;> decide

/-- The value of a printed digit. -/
theorem digitOf_digitByte {n : Nat} (h : n < 10) : digitOf (digitByte n) = some n := by
  have e : (digitByte n).toNat = 48 + n := by simp only [digitByte, BitVec.toNat_ofNat]; omega
  simp only [digitOf, e]
  rw [if_pos (by omega)]
  congr 1
  omega

/-- Reading one digit more. -/
theorem decimalFrom_append {acc k : Nat} {xs : Line} {d : Nat} (h : decimalFrom acc xs = some k) (hd : d < 10) :
    decimalFrom acc (xs ++ [digitByte d]) = some (10 * k + d) := by
  induction xs generalizing acc with
  | nil =>
    simp only [decimalFrom, Option.some.injEq] at h
    simp [decimalFrom, digitOf_digitByte hd, h]
  | cons b bs ih =>
    simp only [decimalFrom, List.cons_append] at h ⊢
    split at h
    · exact ih h
    · cases h

/-- Digits are read back as their number, when the fuel suffices. -/
theorem decimalFrom_digitsOf {fuel n : Nat} (h : n < fuel) : decimalFrom 0 (digitsOf fuel n) = some n := by
  induction fuel generalizing n with
  | zero => omega
  | succ fuel ih =>
    simp only [digitsOf]
    split
    · rename_i hn
      simp [decimalFrom, digitOf_digitByte hn]
    · rename_i hn
      rw [decimalFrom_append (ih (by omega)) (by omega)]
      congr 1
      omega

/-- Printed digits hold no white space. -/
theorem isSpace_digitsOf {fuel n : Nat} : ∀ b ∈ digitsOf fuel n, isSpace b = false := by
  induction fuel generalizing n with
  | zero => simp [digitsOf]
  | succ fuel ih =>
    simp only [digitsOf]
    split
    · rename_i hn
      simpa using isSpace_digitByte hn
    · intro b hb
      rcases List.mem_append.1 hb with hb | hb
      · exact ih b hb
      · rw [List.mem_singleton.1 hb]
        exact isSpace_digitByte (Nat.mod_lt _ (by omega))

/-- A printed number holds no white space. -/
theorem isSpace_printDecimal (n : Nat) : ∀ b ∈ printDecimal n, isSpace b = false := isSpace_digitsOf

/-- A printed number is not empty. -/
theorem printDecimal_ne_nil (n : Nat) : (printDecimal n).isEmpty = false := by
  simp only [printDecimal, digitsOf]
  split <;> simp

/-- A printed number is read back. -/
@[simp] theorem parseDecimal_printDecimal (n : Nat) : parseDecimal (printDecimal n) = some n := by
  rw [parseDecimal, printDecimal_ne_nil]
  exact decimalFrom_digitsOf (by omega)

/-- A byte is a digit exactly when it is 48 to 57 (ASCII), and then its value. -/
theorem digitOf_eq_some {b : Byte} {d : Nat} : digitOf b = some d ↔ (48 ≤ b.toNat ∧ b.toNat ≤ 57) ∧ b.toNat - 48 = d := by
  unfold digitOf
  split <;> rename_i h <;> simp [h]

/-- What is read as digits after `acc`: only digits, each one decimal place. -/
theorem decimalFrom_eq_some {acc n : Nat} {t : Line} :
    decimalFrom acc t = some n ↔
      (∀ b ∈ t, 48 ≤ b.toNat ∧ b.toNat ≤ 57) ∧ t.foldl (fun acc b => 10 * acc + (b.toNat - 48)) acc = n := by
  induction t generalizing acc with
  | nil => simp [decimalFrom]
  | cons b t ih =>
    rw [decimalFrom]
    split
    · rename_i d hd
      obtain ⟨hb, rfl⟩ := digitOf_eq_some.1 hd
      rw [ih]
      simp [hb]
    · rename_i hd
      refine ⟨fun h => (by cases h), fun h => ?_⟩
      rw [digitOf_eq_some.2 ⟨h.1 b (by simp), rfl⟩] at hd
      cases hd

/-- What is read as a decimal number (log entry 15): a token of digits only, with its value. -/
theorem parseDecimal_eq_some {t : Line} {n : Nat} :
    parseDecimal t = some n ↔
      t ≠ [] ∧ (∀ b ∈ t, 48 ≤ b.toNat ∧ b.toNat ≤ 57) ∧ t.foldl (fun acc b => 10 * acc + (b.toNat - 48)) 0 = n := by
  cases t with
  | nil => simp [parseDecimal]
  | cons b t => rw [← decimalFrom_eq_some]; simp [parseDecimal]

/-- What is read as a Word: a decimal number in 0..32775. -/
theorem parseWord_eq_some {t : Line} {w : Word} : parseWord t = some w ↔ parseDecimal t = some w.toNat ∧ IsWord w := by
  unfold parseWord
  split
  · rename_i n hn
    rw [hn]
    split
    · rename_i h
      simp only [Option.some.injEq, IsWord, ← BitVec.toNat_inj, BitVec.toNat_ofNat]
      omega
    · rename_i h
      simp only [reduceCtorEq, false_iff, Option.some.injEq, IsWord]
      omega
  · rename_i hn
    simp [hn]

/-- What is read as Words: one Word a line. -/
theorem parseWords_eq_some {ls : List Line} {ws : List Word} :
    parseWords ls = some ws ↔ List.Forall₂ (fun l w => parseWord l = some w) ls ws := by
  induction ls generalizing ws with
  | nil => cases ws <;> simp [parseWords]
  | cons l ls ih =>
    rw [parseWords]
    split
    · rename_i w vs hw hvs
      constructor
      · rintro ⟨⟩
        exact .cons hw (ih.1 hvs)
      · intro h
        cases h with
        | cons h1 h2 =>
          rw [hw] at h1
          rw [ih.2 h2] at hvs
          cases h1; cases hvs
          rfl
    · rename_i hn
      refine ⟨fun h => (by cases h), fun h => ?_⟩
      cases h with
      | cons h1 h2 => exact (hn _ _ h1 (ih.2 h2)).elim

/-- A printed Word is read back. -/
theorem parseWord_printDecimal {w : Word} (h : IsWord w) : parseWord (printDecimal w.toNat) = some w := by
  simp [parseWord, h]

/-- What is read as a Word is one. -/
theorem isWord_of_parseWord {t : Line} {w : Word} (h : parseWord t = some w) : IsWord w := by
  simp only [parseWord] at h
  split at h
  · split at h
    · rename_i n _ hn
      cases h
      simp only [IsWord, BitVec.toNat_ofNat]
      omega
    · cases h
  · cases h

/-- Printed Words are read back, in order. -/
theorem parseWords_map_print {ws : List Word} (h : ∀ w ∈ ws, IsWord w) :
    parseWords (ws.map fun w => printDecimal w.toNat) = some ws := by
  induction ws with
  | nil => rfl
  | cons w ws ih =>
    simp [parseWords, parseWord_printDecimal (h w (by simp)), ih fun v hv => h v (by simp [hv])]

/-- What is read as Words are Words. -/
theorem isWord_of_parseWords {ls : List Line} {ws : List Word} (h : parseWords ls = some ws) : ∀ w ∈ ws, IsWord w := by
  induction ls generalizing ws with
  | nil => cases h; simp
  | cons l ls ih =>
    simp only [parseWords] at h
    split at h
    · rename_i w ws' hw hws
      cases h
      intro v hv
      rcases List.mem_cons.1 hv with rfl | hv
      · exact isWord_of_parseWord hw
      · exact ih hws v hv
    · cases h

end Sys2Proof.Machine
end

