-- ==== Sys2Proof/Laws/Step.lean ====
section
/-! SUPPORT. The fetch, the debug channel's command, and everything a step can do (`step_cases`). -/

namespace Sys2Proof.Machine

/-! ### Fetch -/

/-- What fetched words are: one read each, at consecutive addresses. -/
theorem fetchWords_eq_some {m : Memory} {a k : Nat} {ws : List Word} (h : fetchWords m a k = some ws) :
    ws.length = k ∧ ∀ j, j < k → m.read (a + j) = ws[j]? := by
  induction k generalizing a ws with
  | zero => cases h; exact ⟨rfl, fun j hj => absurd hj (by omega)⟩
  | succ k ih =>
    simp only [fetchWords] at h
    split at h
    · cases h
    · rename_i w hw
      cases hr : fetchWords m (a + 1) k with
      | none => simp [hr] at h
      | some vs =>
        simp only [hr, Option.map_some, Option.some.injEq] at h
        subst h
        obtain ⟨hl, hv⟩ := ih hr
        refine ⟨by simp [hl], fun j hj => ?_⟩
        cases j with
        | zero => simpa using hw
        | succ j =>
          rw [List.getElem?_cons_succ, ← hv j (by omega)]
          congr 1
          omega

/-- Words that stand in memory are what is fetched. -/
theorem fetchWords_of_reads {m : Memory} {a : Nat} {ws : List Word} (h : ∀ j w, ws[j]? = some w → m.read (a + j) = some w) :
    fetchWords m a ws.length = some ws := by
  induction ws generalizing a with
  | nil => rfl
  | cons w ws ih =>
    have h0 := h 0 w rfl
    rw [Nat.add_zero] at h0
    simp only [List.length_cons, fetchWords, h0]
    rw [ih (fun j v hj => by
      rw [show a + 1 + j = a + (j + 1) by omega]
      exact h (j + 1) v (by simpa using hj))]
    rfl

/-- Consecutive reads fail exactly when one of them is out of bounds. -/
theorem fetchWords_eq_none {m : Memory} {a k : Nat} : fetchWords m a k = none ↔ 0 < k ∧ m.size < a + k := by
  induction k generalizing a with
  | zero => simp [fetchWords]
  | succ k ih =>
    simp only [fetchWords]
    split
    · rename_i h
      have := Memory.read_eq_none.1 h
      simp only [true_iff]
      omega
    · rename_i w h
      have := Memory.lt_size_of_read h
      rw [Option.map_eq_none_iff, ih]
      omega

/-- The last arm of `fetch` is never reached: an opcode with all its operand words always decodes. -/
theorem fetch_reaches_decode {s : State} {op : Word} {k : Nat} {ws : List Word} (hk : operandCount op.toNat = some k)
    (hw : fetchWords s.mem (s.pc + 1) k = some ws) : ∃ i, decodeWords (op :: ws) = .ok (i, []) :=
  decodeWords_exact (by rw [hk, (fetchWords_eq_some hw).1])

/-- A fetched instruction's opcode word stands at pc, and all its words lie below N. -/
theorem fetch_eq_ok {s : State} {i : Instr} (h : fetch s = .ok i) :
    s.mem.read s.pc = some i.opcode ∧ s.pc + i.operands.length < s.mem.size := by
  simp only [fetch] at h
  split at h
  · cases h
  · rename_i op hop
    split at h
    · cases h
    · rename_i k hk
      split at h
      · cases h
      · rename_i ws hws
        split at h
        · rename_i i' rest hd
          cases h
          obtain ⟨args, hw, -⟩ := decodeWords_ok hd
          rw [List.cons_append] at hw
          cases hw
          have hk' : k = i.operands.length := by
            rw [operandCount_opcode] at hk
            exact (Option.some.inj hk).symm
          refine ⟨hop, ?_⟩
          have hpc := Memory.lt_size_of_read hop
          by_contra hge
          have : fetchWords s.mem (s.pc + 1) k = none := fetchWords_eq_none.2 ⟨by omega, by omega⟩
          rw [this] at hws
          cases hws
        · cases h

/-- The opcode word a failed fetch records is the word at pc (`60_exceptions.md` R201). -/
theorem fetch_eq_error {s : State} {k : FaultKind} {op : Option Word} (h : fetch s = .error (k, op)) :
    op = s.mem.read s.pc := by
  simp only [fetch] at h
  split at h
  · rename_i hop
    cases h
    exact hop.symm
  · rename_i w hop
    split at h
    · cases h
      exact hop.symm
    · split at h
      · cases h
        exact hop.symm
      · split at h
        · cases h
        · cases h
          exact hop.symm

/-! ### The debug channel -/

/-- What a successful `load` sets holds Words, in a well-formed word store (`60_exceptions.md` R217). -/
theorem parseArtifact_ok {a : Artifact} {x : Snapshot} (h : parseArtifact a = .ok x) :
    x.mem.wf ∧ (∀ r : Fin 8, IsWord x.regs[r.val]) ∧ ∀ w ∈ x.stack, IsWord w := by
  simp only [parseArtifact] at h
  split at h
  · split at h
    · cases h
    · rename_i lines bs _ _ m hm
      split at h
      · rename_i y hy
        cases h
        simp only [parseDump] at hm
        split at hm
        · rename_i hb
          cases hm
          simp only [parseRecord] at hy
          split at hy
          · cases hy
          · split at hy
            · rename_i p rs st _ hr hs
              split at hy
              · rename_i hl
                cases hy
                refine ⟨Memory.ofImage_wf hb.1 hb.2, fun r => isWord_of_parseWords hr _ ?_, isWord_of_parseWords hs⟩
                simp only [Vector.getElem_mk, List.getElem_toArray]
                exact List.getElem_mem _
              · cases hy
            · cases hy
        · cases hm
      · cases h
  · cases h

/-- A snapshot found in storage is one artifact's, read completely. -/
theorem readSnapshot_ok {files : List Artifact} {name : Line} {x : Snapshot} (h : readSnapshot files name = .ok x) :
    ∃ a, parseArtifact a = .ok x := by
  simp only [readSnapshot] at h
  split at h
  · exact ⟨_, h⟩
  · cases h

/-- What a command can do to the core: restore a snapshot, write one register with a Word, or nothing but the host's side
(`60_exceptions.md` R216 to R221). -/
theorem runCommand_cases (c : Command) (s : State) :
    (∃ name x, c = .load name ∧ readSnapshot s.host.files name = .ok x ∧ runCommand c s = s.restore x) ∨
    (∃ i v, ∃ h : i < 8, c = .setreg i v ∧ v ≤ 32775 ∧ runCommand c s = s.setReg ⟨i, h⟩ (BitVec.ofNat 16 v)) ∨
    ∃ h, runCommand c s = s.setHost h := by
  cases c with
  | save name =>
    simp only [runCommand, cmdSave]
    split <;> exact .inr (.inr ⟨_, rfl⟩)
  | load name =>
    simp only [runCommand, cmdLoad]
    split
    · rename_i x hx
      exact .inl ⟨name, x, rfl, hx, rfl⟩
    · exact .inr (.inr ⟨_, rfl⟩)
    · exact .inr (.inr ⟨_, rfl⟩)
  | setreg i v =>
    simp only [runCommand, cmdSetreg]
    split
    · rename_i hi
      split
      · rename_i hv
        exact .inr (.inl ⟨i, v, hi, rfl, hv, rfl⟩)
      · exact .inr (.inr ⟨_, rfl⟩)
    · exact .inr (.inr ⟨_, rfl⟩)
  | _ => exact .inr (.inr ⟨_, rfl⟩)

/-- No command changes the run state, the fault record, the streams or the parameters. -/
theorem runCommand_leaves (c : Command) (s : State) :
    (runCommand c s).run = s.run ∧ (runCommand c s).fault = s.fault ∧ (runCommand c s).output = s.output ∧
      (runCommand c s).input = s.input ∧ (runCommand c s).params = s.params := by
  rcases runCommand_cases c s with ⟨_, _, _, _, h⟩ | ⟨_, _, _, _, _, h⟩ | ⟨_, h⟩ <;> rw [h] <;> simp

/-- The channel handles one whole line. -/
theorem debugStep_of_line {s : State} {line rest : List Byte} (h : splitLine s.input = some (line, rest)) :
    debugStep s = .next ((runCommand (parseCommand line) (s.setInput rest)).setSusp .none) := by
  simp only [debugStep, h]

/-- With no line's end in the input the channel waits. -/
theorem debugStep_waits {s : State} (h : splitLine s.input = none) : debugStep s = .fault .waitingForCommandLine := by
  simp only [debugStep, h]

/-! ### The step -/

/-- A running, unsuspended core executes what it fetches. -/
theorem step_of_fetch {s : State} {i : Instr} (hr : s.run = .running) (hs : s.susp = .none) (hf : fetch s = .ok i) :
    step s = exec i s := by
  simp [step, hr, hs, hf]

/-- A running, suspended core hands the step to the debug channel. -/
theorem step_debug {s : State} (hr : s.run = .running) (hs : s.susp = .debug) : step s = debugStep s := by
  simp [step, hr, hs]

/-- Everything a step can do when it gives a next state: an instruction's effect, a fetch's fault, or one debug command. -/
theorem step_cases {s t : State} (h : step s = .next t) :
    s.run = .running ∧
    ((s.susp = .none ∧ ∃ i, fetch s = .ok i ∧ Effect i s t) ∨
     (s.susp = .none ∧ ∃ k, t = s.raise k (s.mem.read s.pc)) ∨
     (s.susp = .debug ∧ ∃ line rest, splitLine s.input = some (line, rest) ∧
        t = (runCommand (parseCommand line) (s.setInput rest)).setSusp .none)) := by
  simp only [step] at h
  split at h
  · cases h
  · cases h
  · rename_i hr
    refine ⟨hr, ?_⟩
    split at h
    · rename_i hs
      simp only [debugStep] at h
      split at h
      · cases h
      · rename_i line rest hl
        cases h
        exact .inr (.inr ⟨hs, line, rest, hl, rfl⟩)
    · rename_i hs
      split at h
      · rename_i i hi
        exact .inl ⟨hs, i, hi, exec_effect h⟩
      · rename_i k op hk
        cases h
        rw [fetch_eq_error hk]
        exact .inr (.inl ⟨hs, k, rfl⟩)

end Sys2Proof.Machine
end

