-- ==== Sys2Proof/Machine/Assembly.lean ====
section
/-! DEFINITION. The assembly notation of `30_encoding.md` R86: one instruction written `MNEMONIC op, op, ...` in ASCII. No
instruction of the machine uses it. Details the rule leaves open: log entry 20. -/

namespace Sys2Proof.Machine

/-- The mnemonics of R77 in lower case, by opcode. -/
def mnemonics : List (Line × Nat) :=
  [([0x68, 0x61, 0x6c, 0x74], 0), ([0x73, 0x65, 0x74], 1), ([0x70, 0x75, 0x73, 0x68], 2), ([0x70, 0x6f, 0x70], 3),
   ([0x65, 0x71], 4), ([0x67, 0x74], 5), ([0x6a, 0x6d, 0x70], 6), ([0x6a, 0x74], 7), ([0x6a, 0x66], 8),
   ([0x61, 0x64, 0x64], 9), ([0x6d, 0x75, 0x6c, 0x74], 10)] ++
  [([0x6d, 0x6f, 0x64], 11), ([0x61, 0x6e, 0x64], 12), ([0x6f, 0x72], 13), ([0x6e, 0x6f, 0x74], 14),
   ([0x72, 0x6d, 0x65, 0x6d], 15), ([0x77, 0x6d, 0x65, 0x6d], 16), ([0x63, 0x61, 0x6c, 0x6c], 17),
   ([0x72, 0x65, 0x74], 18), ([0x6f, 0x75, 0x74], 19), ([0x69, 0x6e], 20), ([0x6e, 0x6f, 0x6f, 0x70], 21)]

/-- Case carries no meaning (R86): A..Z as a..z. -/
def lowerCase (b : Byte) : Byte := if 65 ≤ b.toNat ∧ b.toNat ≤ 90 then b + 32 else b

/-- An operand: a decimal literal 0..32767, or `reg0`..`reg7` (R86). -/
def parseOperand (t : Line) : Option Operand :=
  match parseDecimal t with
  | some n => if n ≤ 32767 then some (.lit (BitVec.ofNat 15 n)) else none
  | none =>
    match t with
    | [0x72, 0x65, 0x67, d] =>
      match digitOf d with
      | some r => if h : r < 8 then some (.reg ⟨r, h⟩) else none
      | none => none
    | _ => none

/-- The fields of a text between its commas. -/
def splitCommas (cur : Line) : Line → List Line
  | [] => [cur]
  | b :: bs => if b.toNat = 44 then cur :: splitCommas [] bs else splitCommas (cur ++ [b]) bs

/-- The text up to the first white space, and the text from there on. -/
def splitMnemonic : Line → Line × Line
  | [] => ([], [])
  | b :: bs => if isSpace b then ([], b :: bs) else (b :: (splitMnemonic bs).1, (splitMnemonic bs).2)

/-- One operand in each field, white space around it. -/
def parseFields : List Line → Option (List Operand)
  | [] => some []
  | f :: fs =>
    match tokens f with
    | [t] =>
      match parseOperand t, parseFields fs with
      | some a, some as => some (a :: as)
      | _, _ => none
    | _ => none

/-- The operands of an instruction's text after its mnemonic. -/
def parseArgs (rest : Line) : Option (List Operand) :=
  if (tokens rest).isEmpty then some [] else parseFields (splitCommas [] rest)

/-- The instruction that a line of assembly writes; a destination must be written as a register (R86). -/
def assemble (line : Line) : Option Instr :=
  match mnemonics.lookup (splitMnemonic (line.map lowerCase)).1, parseArgs (splitMnemonic (line.map lowerCase)).2 with
  | some op, some args =>
    match Instr.ofOpcode op args with
    | some i => if i.dest.isSome && i.destReg.isNone then none else some i
    | none => none
  | _, _ => none

end Sys2Proof.Machine
end

