-- ==== Sys2Proof/Tests/Slice0.lean ====
section
/-! SUPPORT. Tests of single steps, with results taken from `95_test_vectors.md` (V1 to V90), the decoding of words written out
from `30_encoding.md` R73 and R77, the smoke test of WellFormed, and a witness for the hypotheses of each obligation. -/

namespace Sys2Proof.Tests

open Sys2Proof.Machine

/-! ### Helpers -/

/-- The parameters of the tests: the sentinel is the byte 0x60, the stack unbounded. -/
def params : Params := { sentinel := 0x60, stackLimit := none }

/-- The state launched from the image of `ws`. -/
def boot (ws : List Word) : State := State.construct params (Memory.ofImage (bytesOfWords ws))

/-- The same with bytes offered at the console input. -/
def bootInput (ws : List Word) (bs : List Byte) : State := (boot ws).setInput bs

/-- A suspended core with a command line in its input (`nl` ends the line). -/
def suspended (bs : List Byte) : State := (bootInput [20, 32768] bs).setSusp .debug

/-- The same over a storage. -/
def suspendedOver (files : List Artifact) (bs : List Byte) : State :=
  (suspended bs).setHost { (suspended bs).host with files := files }

/-- A text record: pc 7, every register 7, an empty stack. -/
def record7 : List Line := List.replicate 9 [0x37]

/-- What `record7` and an empty dump hold. -/
def snapshot7 : Snapshot := { pc := 7, regs := Vector.replicate 8 7, stack := [], mem := Memory.empty }

/-- Storage with one pair of artifacts, under the default name. -/
def storage (lines : Option (List Line)) (bs : Option (List Byte)) : List Artifact :=
  [{ name := [0x30, 0x30, 0x31], record := lines, dump := bs }]

/-- The next state of an outcome. -/
def nextOf : Host.Outcome State Fault Refusal → Option State
  | .next t => some t
  | .fault _ => none
  | .refused _ => none

/-- What a test looks at in the state one step later. -/
def look {α : Type} (s : State) (f : State → α) : Option α := (nextOf (step s)).map f

/-- A FAULTED core and its record. -/
def faulted (k : FaultKind) (p : Nat) (op : Word) : RunState × Option FaultRecord :=
  (.faulted, some { kind := k, pc := p, opcode := some op })

/-! ### WellFormed: the ill-formed term of its one check, in each class and position -/

theorem test_wf_refuses_a_literal_word : (Operand.invalid 32767).wf = false := by decide
theorem test_wf_refuses_a_register_word : (Operand.invalid 32775).wf = false := by decide
theorem test_wf_accepts_an_invalid_word : (Operand.invalid 32776).wf = true := by decide
theorem test_wf_looks_at_every_operand :
    (Instr.push (.invalid 5)).wf = false ∧ (Instr.jt (.lit 0) (.invalid 5)).wf = false ∧
      (Instr.add (.reg 0) (.lit 1) (.invalid 32770)).wf = false := by decide

/-! ### Decoding, every constructor: words written out from R77 (opcodes) and R73 (operands) -/

theorem test_decode_f0 :
    decodeWords [0] = .ok (.halt, []) ∧ decodeWords [18] = .ok (.ret, []) ∧ decodeWords [21] = .ok (.noop, []) := by decide
theorem test_decode_f1_val :
    decodeWords [2, 7] = .ok (.push (.lit 7), []) ∧ decodeWords [6, 0x8001] = .ok (.jmp (.reg 1), []) ∧
      decodeWords [17, 5] = .ok (.call (.lit 5), []) ∧ decodeWords [19, 0x7FFF] = .ok (.out (.lit 32767), []) := by decide
theorem test_decode_f1_dest :
    decodeWords [3, 0x8000] = .ok (.pop (.reg 0), []) ∧ decodeWords [20, 0x8007] = .ok (.inp (.reg 7), []) := by decide
theorem test_decode_f2 :
    decodeWords [1, 0x8000, 60] = .ok (.set (.reg 0) (.lit 60), []) ∧
      decodeWords [7, 0, 0x9C40] = .ok (.jt (.lit 0) (.invalid 0x9C40), []) ∧
      decodeWords [8, 0x8002, 10] = .ok (.jf (.reg 2) (.lit 10), []) ∧
      decodeWords [14, 0x8004, 0x8003] = .ok (.not (.reg 4) (.reg 3), []) := by decide
theorem test_decode_f2_memory :
    decodeWords [15, 0x8001, 11] = .ok (.rmem (.reg 1) (.lit 11), []) ∧
      decodeWords [16, 10, 0x8008] = .ok (.wmem (.lit 10) (.invalid 0x8008), []) := by decide
theorem test_decode_f3_compare :
    decodeWords [4, 0x8000, 5, 6] = .ok (.eq (.reg 0) (.lit 5) (.lit 6), []) ∧
      decodeWords [5, 0x8006, 0x8004, 0x8002] = .ok (.gt (.reg 6) (.reg 4) (.reg 2), []) := by decide
theorem test_decode_f3_arithmetic :
    decodeWords [9, 0x8002, 0x8000, 0x8001] = .ok (.add (.reg 2) (.reg 0) (.reg 1), []) ∧
      decodeWords [10, 0x8002, 3, 0x8001] = .ok (.mult (.reg 2) (.lit 3) (.reg 1), []) ∧
      decodeWords [11, 0x8003, 0x8002, 100] = .ok (.mod (.reg 3) (.reg 2) (.lit 100), []) := by decide
theorem test_decode_f3_logic :
    decodeWords [12, 0x8000, 12, 10] = .ok (.and (.reg 0) (.lit 12) (.lit 10), []) ∧
      decodeWords [13, 0x8000, 0x8005, 10] = .ok (.or (.reg 0) (.reg 5) (.lit 10), []) := by decide
/-- R80: what follows an instruction's own words is left over. -/
theorem test_decode_leaves_the_rest : decodeWords [2, 7, 9, 9] = .ok (.push (.lit 7), [9, 9]) := by decide
/-- V86, V87, V89, V90, and half a word. -/
theorem test_decode_errors :
    decodeWords [22] = .error (.unknownOpcode 22) ∧ decodeWords [32768] = .error (.unknownOpcode 32768) ∧
      decodeWords [9, 32768, 1] = .error (.truncated 9) ∧ decodeWords [] = .error .noOpcode ∧
      decodeBytes [9, 0, 2] = .error .halfWord := by decide
/-- R87's example, as image bytes. -/
theorem test_encode_example :
    encodeBytes (.add (.reg 2) (.reg 0) (.reg 1)) = [0x09, 0x00, 0x02, 0x80, 0x00, 0x80, 0x01, 0x80] ∧
      decodeBytes [0x09, 0x00, 0x02, 0x80, 0x00, 0x80, 0x01, 0x80] = .ok (.add (.reg 2) (.reg 0) (.reg 1), []) := by decide
/-- The host's numbering: the first word is the low one. -/
theorem test_decodeTableWord :
    decodeTableWord 16 14 = some (.not (.lit 0) (.lit 0)) ∧ decodeTableWord 48 0x80038004000E = some (.not (.reg 4) (.reg 3)) ∧
      decodeTableWord 16 22 = none := by decide
/-- A table word is what the next step runs. -/
theorem test_withFetchWord_runs_it :
    look (State.reset.withFetchWord 48 0x003C80000001) (fun t => (t.reg 0, t.pc)) = some (60, 3) := by decide
theorem test_withFetchWord_every_opcode :
    (List.range 22).all (fun op => (nextOf (step (State.reset.withFetchWord 16 op))).isSome) = true := by decide
/-- R86, R87: `add reg2, reg0, reg1`; and the source's capitals, `SET REG0,60`. -/
theorem test_assemble :
    assemble [0x61, 0x64, 0x64, 0x20, 0x72, 0x65, 0x67, 0x32, 0x2c, 0x20, 0x72, 0x65, 0x67, 0x30, 0x2c, 0x20, 0x72, 0x65,
        0x67, 0x31] = some (.add (.reg 2) (.reg 0) (.reg 1)) ∧
      assemble [0x53, 0x45, 0x54, 0x20, 0x52, 0x45, 0x47, 0x30, 0x2c, 0x36, 0x30] = some (.set (.reg 0) (.lit 60)) := by decide
/-- R86: a destination must be written as a register. -/
theorem test_assemble_refuses_a_literal_destination : assemble [0x70, 0x6f, 0x70, 0x20, 0x35] = none := by decide

/-! ### One step, every instruction -/

/-- V1. -/
theorem test_halt : look (boot [0]) (fun t => (t.run, t.pc, t.fault)) = some (.halted, 0, none) := by decide
/-- V3. -/
theorem test_set_register : look ((boot [1, 32769, 32768]).setReg 0 9) (fun t => (t.reg 1, t.pc)) = some (9, 3) := by decide
/-- V7: the destination is checked first. -/
theorem test_set_destination_first : look (boot [1, 40000, 40000]) State.status = some (faulted .invalidDestination 0 1) := by
  decide
/-- V9, over a stack that is not empty. -/
theorem test_push_on_top :
    look (((boot [2, 32771]).setReg 3 32768).setStack [7]) (fun t => (t.stack, t.pc)) = some ([7, 32768], 2) := by decide
/-- V13. -/
theorem test_push_full :
    look { (boot [2, 1]).setStack [0] with params := { sentinel := 0, stackLimit := some 1 } } State.status =
      some (faulted .stackOverflow 0 2) := by decide
/-- V10, the top of two. -/
theorem test_pop_top : look ((boot [3, 32768]).setStack [1, 7]) (fun t => (t.reg 0, t.stack)) = some (7, [1]) := by decide
/-- V12: the destination is checked before the stack. -/
theorem test_pop_destination_first : look (boot [3, 5]) State.status = some (faulted .invalidDestination 0 3) := by decide
/-- V16. -/
theorem test_eq_same_register : look ((boot [4, 32768, 32768, 32768]).setReg 0 77) (fun t => (t.reg 0, t.pc)) = some (1, 4) := by
  decide
/-- V22. -/
theorem test_eq_invalid_operand : look (boot [4, 32768, 5, 65535]) State.status = some (faulted .invalidOperand 0 4) := by decide
/-- V21. -/
theorem test_gt_unsigned : look ((boot [5, 32768, 32769, 32767]).setReg 1 32768) (·.reg 0) = some 1 := by decide
/-- V18. -/
theorem test_gt_less : look (boot [5, 32768, 4, 5]) (·.reg 0) = some 0 := by decide
/-- V24. -/
theorem test_jmp_register : look ((boot [6, 32769]).setReg 1 4) (·.pc) = some 4 := by decide
/-- V29: an invalid target is not resolved when the jump is not taken. -/
theorem test_jt_not_taken : look (boot [7, 0, 40000]) (fun t => (t.pc, t.run)) = some (3, .running) := by decide
/-- V31. -/
theorem test_jt_taken : look ((boot [7, 32768, 10]).setReg 0 32768) (·.pc) = some 10 := by decide
/-- V32. -/
theorem test_jf_taken : look (boot [8, 0, 10]) (·.pc) = some 10 := by decide
/-- V34. -/
theorem test_jf_not_taken : look (boot [8, 5, 40000]) (fun t => (t.pc, t.run)) = some (3, .running) := by decide
/-- V36. -/
theorem test_add_wraps : look (boot [9, 32768, 32758, 15]) (·.reg 0) = some 5 := by decide
/-- V39: a value above the literals is reduced too. -/
theorem test_add_reference_value : look ((boot [9, 32769, 32768, 5]).setReg 0 32768) (·.reg 1) = some 5 := by decide
/-- V40. -/
theorem test_mult_exact_first : look (boot [10, 32768, 32767, 32767]) (·.reg 0) = some 1 := by decide
/-- V42. -/
theorem test_mult_wraps : look (boot [10, 32768, 1234, 5678]) (·.reg 0) = some 27068 := by decide
/-- V49: not reduced. -/
theorem test_mod_not_reduced :
    look (((boot [11, 32768, 32769, 32770]).setReg 1 32769).setReg 2 32770) (·.reg 0) = some 32769 := by decide
/-- V48. -/
theorem test_mod_by_zero :
    look ((boot [11, 32768, 5, 0]).setReg 0 9) (fun t => (t.status, t.reg 0)) = some (faulted .divisionByZero 0 11, 9) := by decide
/-- V51. -/
theorem test_and : look (boot [12, 32768, 12, 10]) (·.reg 0) = some 8 := by decide
/-- V53. -/
theorem test_and_masks : look ((boot [12, 32768, 32769, 32767]).setReg 1 32768) (·.reg 0) = some 0 := by decide
/-- V54. -/
theorem test_or : look (boot [13, 32768, 12, 10]) (·.reg 0) = some 14 := by decide
/-- V55. -/
theorem test_or_masks : look ((boot [13, 32768, 32769, 0]).setReg 1 32768) (·.reg 0) = some 0 := by decide
/-- V59. -/
theorem test_not : look (boot [14, 32768, 21845]) (·.reg 0) = some 10922 := by decide
/-- V60. -/
theorem test_not_masks : look ((boot [14, 32768, 32769]).setReg 1 32768) (·.reg 0) = some 32767 := by decide
/-- V62: a raw copy. -/
theorem test_rmem_raw : look (boot [15, 32768, 1]) (fun t => (t.reg 0, t.pc)) = some (32768, 3) := by decide
/-- V64. -/
theorem test_rmem_above_word : look (boot [15, 32768, 3, 40000]) State.status = some (faulted .invalidOperand 0 15) := by decide
/-- V66, at N = 4; and the cell beside it. -/
theorem test_wmem_register :
    look (((boot [16, 32769, 32768, 5]).setReg 0 7).setReg 1 3) (fun t => (t.mem.read 3, t.mem.read 2)) =
      some (some 7, some 32768) := by decide
/-- V67, at N = 3. -/
theorem test_wmem_out_of_bounds :
    look (boot [16, 3, 1]) (fun t => (t.status, t.mem)) = some (faulted .outOfBounds 0 16, (boot [16, 3, 1]).mem) := by decide
/-- V70. -/
theorem test_call_register :
    look (((boot [0, 0, 0, 17, 32768]).setReg 0 9).setPc 3) (fun t => (t.stack, t.pc)) = some ([5], 9) := by decide
/-- V71. -/
theorem test_call_invalid : look (boot [17, 40000]) (fun t => (t.status, t.stack)) = some (faulted .invalidOperand 0 17, []) := by
  decide
/-- V72. -/
theorem test_ret : look ((boot [18]).setStack [2]) (fun t => (t.pc, t.stack)) = some (2, []) := by decide
/-- V73, at p = 1. -/
theorem test_ret_empty : look ((boot [0, 18]).setPc 1) (fun t => (t.run, t.pc, t.fault)) = some (.halted, 1, none) := by decide
/-- V76, after a byte already sent. -/
theorem test_out_modulo_256 : look ((boot [19, 321]).emit 9) (fun t => (t.output, t.pc)) = some ([9, 65], 2) := by decide
/-- V78. -/
theorem test_in_byte : look (bootInput [20, 32768] [97, 98]) (fun t => (t.reg 0, t.pc, t.input)) = some (97, 2, [98]) := by decide
/-- V80: no byte consumed. -/
theorem test_in_destination_first :
    look (bootInput [20, 5] [97]) (fun t => (t.status, t.input)) = some (faulted .invalidDestination 0 20, [97]) := by decide
/-- V85. -/
theorem test_noop : look ((boot [0, 0, 0, 0, 0, 0, 0, 21]).setPc 7) (·.pc) = some 8 := by decide

/-! ### Fetch, ports and the debug channel -/

/-- V26 and V90: OutOfBounds on the opcode fetch, no opcode recorded. -/
theorem test_fetch_out_of_bounds :
    look ((boot [0]).setPc 25) State.status = some (.faulted, some { kind := .outOfBounds, pc := 25, opcode := none }) := by decide
/-- V87. -/
theorem test_fetch_register_word : look (boot [32768]) State.status = some (faulted .invalidOpcode 0 32768) := by decide
/-- V89: an operand fetch past the end. -/
theorem test_fetch_cut_short : look (boot [9, 32768, 1]) State.status = some (faulted .outOfBounds 0 9) := by decide
/-- V79. -/
theorem test_in_waits : nextOf (step (boot [20, 32768])) = none := by decide
/-- V81, the sentinel: pc and reg0 stay. -/
theorem test_in_sentinel :
    look (bootInput [20, 32768] [0x60, 0x61]) (fun t => (t.susp, t.pc, t.reg 0, t.input)) = some (.debug, 0, 0, [0x61]) := by decide
/-- V82: `setreg 3 500`. -/
theorem test_debug_setreg :
    look (suspended [0x73, 0x65, 0x74, 0x72, 0x65, 0x67, 0x20, 0x33, 0x20, 0x35, 0x30, 0x30, 10, 7])
      (fun t => (t.reg 3, t.pc, t.susp, t.input)) = some (500, 0, .none, [7]) := by decide
/-- V83: `setreg 9 500`. -/
theorem test_debug_setreg_index :
    look (suspended [0x73, 0x65, 0x74, 0x72, 0x65, 0x67, 0x20, 0x39, 0x20, 0x35, 0x30, 0x30, 10])
      (fun t => (t.regs, t.host.reports)) = some ((boot []).regs, [.indexOutOfRange]) := by decide
/-- V84: `frobnicate`. -/
theorem test_debug_unrecognized :
    look (suspended [0x66, 0x72, 0x6f, 0x62, 0x6e, 0x69, 0x63, 0x61, 0x74, 0x65, 10])
      (fun t => (t.susp, t.host.reports)) = some (.none, [.unrecognizedCommand]) := by decide
/-- R216, R224, R225: `save` of pc 0, reg0 12, stack 5, one word 0x0102. -/
theorem test_debug_save :
    look ((((suspended [0x73, 0x61, 0x76, 0x65, 10]).setReg 0 12).setStack [5]).setMem (Memory.ofImage [2, 1]))
      (fun t => t.host.files) =
      some [{ name := [0x30, 0x30, 0x31], dump := some [2, 1],
              record := some ([[0x30], [0x31, 0x32]] ++ List.replicate 7 [0x30] ++ [[0x35]]) }] := by decide
/-- R217: a record with seven register lines is malformed, and nothing changes. -/
theorem test_debug_load_corrupt :
    look ((suspended [0x6c, 0x6f, 0x61, 0x64, 10]).setHost
        { files := [{ name := [0x30, 0x30, 0x31], dump := some [], record := some (List.replicate 8 [0x30]) }], reports := [],
          logging := false, saveFails := false })
      (fun t => (t.host.reports, t.mem.size)) = some ([.snapshotCorrupt], 2) := by decide

/-! ### Witnesses: for each obligation with hypotheses, a concrete state and operands that meet them, clause by clause -/

/-- A value operand that resolves in `s`, at the ends of the literals and from a register that holds more than a literal. -/
theorem resolves :
    (boot []).resolve (.lit 0) = .ok 0 ∧ (boot []).resolve (.lit 32767) = .ok 32767 ∧
      ((boot []).setReg 7 32775).resolve (.reg 7) = .ok 32775 := ⟨rfl, rfl, rfl⟩

/-- The booted state is consistent. -/
theorem boot_inv {ws : List Word} (h : (bytesOfWords ws).length ≤ 65536) : (boot ws).Inv where
  mem_wf := Memory.ofImage_wf (by
    have : ∀ ws : List Word, (bytesOfWords ws).length % 2 = 0 := by
      intro ws
      induction ws with
      | nil => rfl
      | cons w ws ih => simp only [bytesOfWords, List.length_cons]; omega
    exact this ws) h
  regs_word r := by simp [boot]
  stack_word := by simp [boot, State.construct]
  fault_iff := by simp [boot, State.construct]
  debug_running := by simp [boot, State.construct]

theorem witness_DecodeInvertsEncode :
    (Instr.add (.reg 7) (.lit 32767) (.invalid 32776)).wf = true ∧ (Instr.halt).wf = true := by decide

theorem witness_EncodeInvertsDecode : decodeWords [2, 65535, 9] = .ok (.push (.invalid 65535), [9]) := by decide

theorem witness_OpcodeIsTheRawWord :
    ((21 : Word).toNat ≤ 21 ∧ operandCount 21 = some 0 ∧ 0 ≤ ([] : List Word).length) ∧
      (operandCount 5 = some 3 ∧ 3 ≤ [(1 : Word), 2, 3].length) ∧
      ((boot [22]).run = .running ∧ (boot [22]).susp = .none ∧ (boot [22]).mem.read (boot [22]).pc = some 22) := by decide

theorem witness_OperandResolver :
    (32767 : Word).toNat ≤ 32767 ∧ (32768 : Word).toNat = 32768 + (0 : Fin 8).val ∧
      (32775 : Word).toNat = 32768 + (7 : Fin 8).val ∧ 32775 < (32776 : Word).toNat := by decide

theorem witness_StepRunsTheDecodedInstruction :
    (boot [9, 32768, 1, 40000]).run = .running ∧ (boot [9, 32768, 1, 40000]).susp = .none ∧
      (Instr.add (.reg 0) (.lit 1) (.invalid 40000)).wf = true ∧
      ∀ k w, (encode (.add (.reg 0) (.lit 1) (.invalid 40000)))[k]? = some w →
        (boot [9, 32768, 1, 40000]).mem.read ((boot [9, 32768, 1, 40000]).pc + k) = some w := by
  refine ⟨rfl, rfl, rfl, fun k w h => ?_⟩
  have hk : k < 4 := (List.getElem?_eq_some_iff.1 h).1
  rw [← h]
  interval_cases k <;> decide

theorem witness_FetchFaults :
    ((boot [1]).setPc 1).mem.size ≤ ((boot [1]).setPc 1).pc ∧ (boot [22]).mem.read 0 = some 22 ∧
      ((boot [9, 32768, 1]).mem.read 0 = some 9 ∧ operandCount 9 = some 3 ∧ (boot [9, 32768, 1]).mem.size ≤ 0 + 3) := by decide

theorem witness_EndedCoreHasNoStep : (boot [0]).stop.run ≠ .running ∧ ((boot [0]).raise .invalidOpcode none).run ≠ .running := by
  decide

theorem witness_RunningCoreWaitsInTwoCasesOnly :
    (boot [20, 32768]).run = .running ∧ step (boot [20, 32768]) = .fault .waitingForInput ∧
      (suspended [1, 2]).run = .running ∧ step (suspended [1, 2]) = .fault .waitingForCommandLine := ⟨rfl, rfl, rfl, rfl⟩

theorem witness_FaultEntryIsPrecise : ∃ t, step (boot [22]) = .next t ∧ t.run = .faulted := ⟨_, rfl, rfl⟩

theorem witness_ProgramCounterAdvance :
    (∃ t, exec (.out (.lit 65)) (boot [19, 65]) = .next t ∧ t.run = .running ∧ t.susp = .none) ∧
      (∃ t, exec .halt (boot [0]) = .next t ∧ t.run ≠ .running) ∧
      ∃ t, exec (.inp (.reg 0)) (bootInput [20, 32768] [0x60]) = .next t ∧ t.susp = .debug :=
  ⟨⟨_, rfl, rfl, rfl⟩, ⟨_, rfl, by decide⟩, ⟨_, rfl, rfl⟩⟩

/-- The hypotheses of `UnaryRule`, clause by clause, whatever the instruction. -/
theorem witness_UnaryRule :
    (∃ a b d vb, a = Operand.reg d ∧ (boot []).resolve b = .ok vb) ∧ (∀ d, Operand.lit 5 ≠ .reg d) ∧
      (∀ d, Operand.invalid 40000 ≠ .reg d) ∧ ∃ a b d w, a = Operand.reg d ∧ b = Operand.invalid w :=
  ⟨⟨_, .lit 32767, 7, _, rfl, rfl⟩, by simp, by simp, ⟨_, _, 0, 32776, rfl, rfl⟩⟩

/-- The hypotheses of `BinaryRule`, clause by clause, whatever the instruction. -/
theorem witness_BinaryRule :
    (∃ a b c d vb vc, a = Operand.reg d ∧ (boot []).resolve b = .ok vb ∧ (boot []).resolve c = .ok vc) ∧
      (∀ d, Operand.lit 5 ≠ .reg d) ∧ (∃ a b d w, a = Operand.reg d ∧ b = Operand.invalid w) ∧
      ∃ a b c d vb w, a = Operand.reg d ∧ (boot []).resolve b = .ok vb ∧ c = Operand.invalid w :=
  ⟨⟨_, .lit 32767, .reg 7, 7, _, _, rfl, rfl, rfl⟩, by simp, ⟨_, _, 0, 32776, rfl, rfl⟩,
    ⟨_, .lit 0, _, 0, _, 65535, rfl, rfl, rfl⟩⟩

/-- The hypotheses of `JumpRule` for `jt` and `jf`, clause by clause. -/
theorem witness_JumpRule :
    (∃ v t, (boot []).resolve (.lit 1) = .ok v ∧ v.toNat ≠ 0 ∧ (boot []).resolve (.lit 10) = .ok t) ∧
      (∃ v, (boot []).resolve (.lit 0) = .ok v ∧ v.toNat = 0 ∧ ¬ v.toNat ≠ 0) ∧
      ∃ v w, (boot []).resolve (.lit 1) = .ok v ∧ v.toNat ≠ 0 ∧ Operand.invalid 32776 = .invalid w :=
  ⟨⟨_, _, rfl, by decide, rfl⟩, ⟨_, rfl, by decide, by decide⟩, ⟨_, _, rfl, by decide, rfl⟩⟩

theorem witness_SetCopiesTheValue : ∃ t, exec (.set (.reg 7) (.lit 32767)) (boot []) = .next t ∧ (t.reg 7).toNat = 32767 :=
  ⟨_, rfl, by decide⟩

theorem witness_PushPutsTheValueOnTop :
    (∀ limit, (boot []).params.stackLimit = some limit → (boot []).stack.length < limit) ∧
      ∃ s : State, ∃ v limit, s.resolve (.lit 1) = .ok v ∧ s.params.stackLimit = some limit ∧ s.stack.length = limit :=
  ⟨(by intro _ h; cases h), { boot [] with params := { sentinel := 0, stackLimit := some 0 } }, _, 0, rfl, rfl, rfl⟩

theorem witness_PopTakesTheTop :
    (∃ st v, ((boot []).setStack [1, 7]).stack = st ++ [v]) ∧ (∀ d, Operand.lit 5 ≠ .reg d) ∧ (boot []).stack = [] :=
  ⟨⟨[1], 7, rfl⟩, by simp, rfl⟩

theorem witness_CompareWritesZeroOrOne :
    ∃ t u, exec (.eq (.reg 0) (.lit 5) (.lit 5)) (boot []) = .next t ∧ t.reg 0 = 1 ∧
      exec (.gt (.reg 0) (.lit 5) (.lit 5)) (boot []) = .next u ∧ u.reg 0 = 0 := ⟨_, _, rfl, by decide, rfl, by decide⟩

theorem witness_AddAndMultModulo32768 :
    ∃ t u, exec (.add (.reg 0) (.lit 32767) (.lit 1)) (boot []) = .next t ∧ t.reg 0 = 0 ∧
      exec (.mult (.reg 0) (.lit 2) (.lit 16385)) (boot []) = .next u ∧ u.reg 0 = 2 := ⟨_, _, rfl, by decide, rfl, by decide⟩

theorem witness_ModIsTheNaturalRemainder :
    (∃ vb vc, (boot []).resolve (.lit 10) = .ok vb ∧ (boot []).resolve (.lit 1) = .ok vc ∧ vc.toNat ≠ 0) ∧
      ∃ vc, (boot []).resolve (.lit 0) = .ok vc ∧ vc.toNat = 0 := ⟨⟨_, _, rfl, rfl, by decide⟩, ⟨_, rfl, by decide⟩⟩

theorem witness_LogicIsMaskedTo15Bits :
    ∃ t u, exec (.or (.reg 0) (.lit 12) (.lit 10)) (boot []) = .next t ∧ t.reg 0 = 14 ∧
      exec (.not (.reg 0) (.lit 0)) (boot []) = .next u ∧ u.reg 0 = 32767 := ⟨_, _, rfl, by decide, rfl, by decide⟩

theorem witness_ResultsAreLiterals :
    ∃ t, (Instr.add (.reg 0) (.reg 1) (.lit 1)).destReg = some 0 ∧
      exec (.add (.reg 0) (.reg 1) (.lit 1)) ((boot []).setReg 1 32775) = .next t ∧
      ((boot []).setReg 1 32775).run = .running ∧ t.run = .running ∧ t.susp = .none := ⟨_, rfl, rfl, rfl, rfl, rfl⟩

theorem witness_JmpGoesToTheTarget :
    (∃ t, ((boot []).setReg 1 32775).resolve (.reg 1) = .ok t ∧ t.toNat = 32775) ∧ ∃ w, Operand.invalid 32776 = .invalid w :=
  ⟨⟨_, rfl, by decide⟩, ⟨_, rfl⟩⟩

theorem witness_ConditionalJumps :
    ∃ t u, exec (.jt (.lit 1) (.lit 10)) (boot []) = .next t ∧ t.pc = 10 ∧
      exec (.jf (.lit 1) (.invalid 40000)) (boot []) = .next u ∧ u.pc = 3 := ⟨_, _, rfl, rfl, rfl, rfl⟩

theorem witness_RmemCopiesTheRawWord :
    ((boot [1, 32775, 32776]).mem.read 1 = some 32775 ∧ (32775 : Word).toNat ≤ 32775) ∧
      ((boot [1, 32775, 32776]).mem.read 2 = some 32776 ∧ 32775 < (32776 : Word).toNat) ∧
      (boot [1, 32775, 32776]).mem.size ≤ (3 : Word).toNat ∧ ∃ v, (boot []).resolve (.lit 3) = .ok v := by
  refine ⟨by decide, by decide, by decide, ⟨_, rfl⟩⟩

theorem witness_WmemStoresTheValue :
    (boot [7, 8]).mem.wf ∧ (∃ addr v, (boot [7, 8]).resolve (.lit 1) = .ok addr ∧ (boot [7, 8]).resolve (.lit 0) = .ok v ∧
      addr.toNat < (boot [7, 8]).mem.size) ∧
      ∃ addr v, (boot [7, 8]).resolve (.lit 2) = .ok addr ∧ (boot [7, 8]).resolve (.lit 0) = .ok v ∧
        (boot [7, 8]).mem.size ≤ addr.toNat :=
  ⟨by decide, ⟨_, _, rfl, rfl, by decide⟩, ⟨_, _, rfl, rfl, by decide⟩⟩

theorem witness_StoreIsSeenByTheNextFetch :
    ∃ s : State, ∃ addr v, s.Inv ∧ s.run = .running ∧ s.susp = .none ∧ fetch s = .ok (.wmem (.lit 3) (.lit 21)) ∧
      s.resolve (.lit 3) = .ok addr ∧ s.resolve (.lit 21) = .ok v ∧ addr.toNat = s.pc + 3 ∧ addr.toNat < s.mem.size ∧
      v.toNat = 21 :=
  ⟨boot [16, 3, 21, 0], _, _, boot_inv (by decide), rfl, rfl, rfl, rfl, rfl, by decide, by decide, by decide⟩

theorem witness_CallPushesTheReturnAddress :
    (∃ t, (boot [17, 5]).pc + 1 < (boot [17, 5]).mem.size ∧ (boot [17, 5]).mem.size ≤ 32768 ∧
      (boot [17, 5]).resolve (.lit 5) = .ok t) ∧
      (∀ limit, (boot [17, 5]).params.stackLimit = some limit → (boot [17, 5]).stack.length < limit) ∧
      ∃ s : State, ∃ t limit, s.resolve (.lit 5) = .ok t ∧ s.params.stackLimit = some limit ∧ s.stack.length = limit :=
  ⟨⟨_, by decide, by decide, rfl⟩, (by intro _ h; cases h),
    { boot [] with params := { sentinel := 0, stackLimit := some 0 } }, _, 0, rfl, rfl, rfl⟩

theorem witness_PushAboveTheLimitFaults :
    ∃ s : State, ∃ v, s.resolve (.lit 1) = .ok v ∧ s.params.stackLimit = some 0 ∧ 0 < s.stack.length :=
  ⟨{ boot [] with params := { sentinel := 0, stackLimit := some 0 }, stack := [1] }, _, rfl, rfl, by decide⟩

theorem witness_RetGoesToTheTopOrHalts : (∃ st t, ((boot []).setStack [2]).stack = st ++ [t]) ∧ (boot []).stack = [] :=
  ⟨⟨[], 2, rfl⟩, rfl⟩

theorem witness_MatchedCallAndReturn :
    ∃ t, (boot [17, 5]).run = .running ∧ (boot [17, 5]).pc + 1 < (boot [17, 5]).mem.size ∧
      (boot [17, 5]).mem.size ≤ 32768 ∧ exec (.call (.lit 5)) (boot [17, 5]) = .next t ∧ t.run = .running ∧
      (t.setPc 7).stack = t.stack := ⟨_, rfl, by decide, by decide, rfl, rfl, rfl⟩

theorem witness_OutSendsOneByte : (∃ v, (boot []).resolve (.lit 321) = .ok v) ∧ ∃ w, Operand.invalid 32776 = .invalid w :=
  ⟨⟨_, rfl⟩, ⟨_, rfl⟩⟩

theorem witness_InTakesOneByte :
    ((bootInput [] [255]).input = [255] ∧ (255 : Byte) ≠ (bootInput [] [255]).params.sentinel) ∧
      (bootInput [] [0x60, 1]).input = (bootInput [] [0x60, 1]).params.sentinel :: [1] ∧ (boot []).input = [] ∧
      ∀ d, Operand.lit 5 ≠ .reg d := ⟨by decide, rfl, rfl, by simp⟩

theorem witness_OfferedByteEndsTheWait :
    (boot [20, 32768]).run = .running ∧ (boot [20, 32768]).susp = .none ∧ fetch (boot [20, 32768]) = .ok (.inp (.reg 0)) ∧
      (boot [20, 32768]).input = [] ∧ (97 : Byte) ≠ (boot [20, 32768]).params.sentinel := ⟨rfl, rfl, rfl, rfl, by decide⟩

theorem witness_RegisterWriterFrame :
    ∃ t, (Instr.rmem (.reg 0) (.lit 1)).dest.isSome = true ∧
      (∀ a, Instr.rmem (.reg 0) (.lit 1) ≠ .pop a ∧ Instr.rmem (.reg 0) (.lit 1) ≠ .inp a) ∧
      exec (.rmem (.reg 0) (.lit 1)) (boot [15, 32768]) = .next t ∧ t.run = .running := ⟨_, rfl, by simp, rfl, rfl⟩

theorem witness_StackInstructionFrame :
    (∃ t, exec (.push (.lit 7)) (boot []) = .next t ∧ t.stack = [7]) ∧
      (∃ t, exec .ret (boot []) = .next t ∧ t.run = .halted) ∧
      (∃ t, exec (.pop (.reg 1)) (boot []) = .next t ∧ t.run = .faulted) ∧
      (∃ t, exec (.pop (.reg 1)) ((boot []).setStack [7]) = .next t ∧ t.run = .running) ∧
      ∃ t, exec (.call (.lit 7)) (boot []) = .next t ∧ t.pc = 7 :=
  ⟨⟨_, rfl, rfl⟩, ⟨_, rfl, rfl⟩, ⟨_, rfl, rfl⟩, ⟨_, rfl, rfl⟩, ⟨_, rfl, rfl⟩⟩

theorem witness_ControlInstructionFrame :
    (∃ t, exec .halt (boot []) = .next t) ∧ (∃ t, exec .noop (boot []) = .next t) ∧
      (∃ t, exec (.jmp (.lit 7)) (boot []) = .next t) ∧ (∃ t, exec (.jt (.lit 0) (.lit 7)) (boot []) = .next t) ∧
      ∃ t, exec (.jf (.lit 0) (.lit 7)) (boot []) = .next t := ⟨⟨_, rfl⟩, ⟨_, rfl⟩, ⟨_, rfl⟩, ⟨_, rfl⟩, ⟨_, rfl⟩⟩

theorem witness_ConsoleInstructionFrame :
    (∃ t, exec (.out (.lit 7)) (boot []) = .next t) ∧ ∃ t, exec (.inp (.reg 7)) (bootInput [] [7]) = .next t ∧ t.run = .running :=
  ⟨⟨_, rfl⟩, ⟨_, rfl, rfl⟩⟩

theorem witness_WmemFrame :
    (∃ t, exec (.wmem (.lit 1) (.lit 7)) (boot [16, 1]) = .next t ∧ t.run = .running) ∧
      (∃ addr, (boot [16, 1]).resolve (.lit 1) = .ok addr) ∧
      ((∃ t, exec (.wmem (.invalid 40000) (.lit 7)) (boot [16, 1]) = .next t) ∧
        ∀ addr, (boot [16, 1]).resolve (.invalid 40000) ≠ .ok addr) :=
  ⟨⟨_, rfl, rfl⟩, ⟨_, rfl⟩, ⟨_, rfl⟩, by simp [State.resolve]⟩

theorem witness_StepKeepsTheInvariant : ∃ s t : State, s.Inv ∧ step s = .next t ∧ t.run = .running :=
  ⟨boot [9, 32768, 32767, 1], _, boot_inv (by decide), rfl, rfl⟩

theorem witness_ProgramCounterBound :
    ∃ s t : State, s.Inv ∧ s.susp = .none ∧ step s = .next t ∧ t.pc = 32767 := ⟨boot [6, 32767], _, boot_inv (by decide), rfl, rfl, rfl⟩

/-- A step of every kind: a `wmem`, another instruction, and a `load`. -/
theorem witness_MemoryChangesOnlyByWmemOrLoad :
    (∃ t, step (boot [16, 0, 1]) = .next t ∧ t.mem ≠ (boot [16, 0, 1]).mem) ∧ (∃ t, step (boot [21]) = .next t) ∧
      ∃ t, step (suspended [0x6c, 0x6f, 0x61, 0x64, 10]) = .next t :=
  ⟨⟨_, rfl, by decide⟩, ⟨_, rfl⟩, ⟨_, rfl⟩⟩

theorem witness_RegistersChangeOnlyByTheirWriters :
    ∃ t, step (boot [1, 32775, 9]) = .next t ∧ t.reg 7 ≠ (boot [1, 32775, 9]).reg 7 := ⟨_, rfl, by decide⟩

theorem witness_StackChangesOnlyByItsInstructions :
    ∃ t, step (boot [2, 9]) = .next t ∧ t.stack ≠ (boot [2, 9]).stack := ⟨_, rfl, by decide⟩

theorem witness_ConsoleStreamsMoveInOrder :
    (∃ t, step (boot [19, 9]) = .next t ∧ t.output = [9]) ∧ ∃ t, step (bootInput [20, 32768] [1, 2]) = .next t ∧ t.input = [2] :=
  ⟨⟨_, rfl, rfl⟩, ⟨_, rfl, rfl⟩⟩

theorem witness_ParametersAreFixed : ∃ t, step (boot [21]) = .next t := ⟨_, rfl⟩

theorem witness_CommandLinesAreRead :
    (([0x78] : Line) ≠ [] ∧ ∀ b ∈ ([0x78] : Line), isSpace b = false) ∧
      (IsDecimal [0x30] 0 ∧ IsDecimal [0x33, 0x32, 0x37, 0x37, 0x36] 32776) ∧ (∀ n, ¬ IsDecimal [0x78] n) ∧
      (([0x78] : Line) ≠ nameOn ∧ ([0x78] : Line) ≠ nameOff) ∧
      [0x53, 0x41, 0x56, 0x45] ∉ [nameSave, nameLoad, nameSetreg, nameBarfreg, nameBarfstack, nameLogging] ∧
      ∀ b ∈ ([32, 9] : Line), isSpace b = true :=
  ⟨by decide, ⟨⟨by decide, by decide, rfl⟩, ⟨by decide, by decide, rfl⟩⟩, fun _ h => absurd (h.2.1 0x78 (by simp)) (by decide),
    by decide, by decide, by decide⟩

theorem witness_DebugIsEnteredOnlyFromIn : ∃ t, step (bootInput [20, 32768] [0x60]) = .next t ∧ t.susp = .debug :=
  ⟨_, rfl, rfl⟩

theorem witness_DebugTakesOneLine :
    (suspended [1, 2, 10, 3]).run = .running ∧ (suspended [1, 2, 10, 3]).susp = .debug ∧
      (suspended [1, 2, 10, 3]).input = [1, 2] ++ 10 :: [3] ∧ (∀ b ∈ ([1, 2] : List Byte), b.toNat ≠ 10) ∧
      ∀ b ∈ (suspended [1, 2]).input, b.toNat ≠ 10 := ⟨rfl, rfl, rfl, by decide, by decide⟩

/-- An empty line, and a `load` that succeeds. -/
theorem witness_DebugLeavesAfterOneCommand :
    (∃ t, (suspended [10]).susp = .debug ∧ step (suspended [10]) = .next t) ∧
      ∃ t, step (suspendedOver (storage (some record7) (some [])) (nameLoad ++ [10])) = .next t ∧ t.pc = 7 :=
  ⟨⟨_, rfl, rfl⟩, ⟨_, rfl, rfl⟩⟩

/-- `setreg 7 9`, `setreg 8 9`, `setreg 0 32776`. -/
theorem witness_SetregWritesOneRegister :
    (AtCommand (suspended (nameSetreg ++ [0x20, 0x37, 0x20, 0x39, 10])) (nameSetreg ++ [0x20, 0x37, 0x20, 0x39]) [] ∧
      parseCommand (nameSetreg ++ [0x20, 0x37, 0x20, 0x39]) = .setreg 7 9) ∧
      (AtCommand (suspended (nameSetreg ++ [0x20, 0x38, 0x20, 0x39, 10])) (nameSetreg ++ [0x20, 0x38, 0x20, 0x39]) [] ∧
        parseCommand (nameSetreg ++ [0x20, 0x38, 0x20, 0x39]) = .setreg 8 9) ∧
      AtCommand (suspended (nameSetreg ++ [0x20, 0x30, 0x20, 0x33, 0x32, 0x37, 0x37, 0x36, 10]))
        (nameSetreg ++ [0x20, 0x30, 0x20, 0x33, 0x32, 0x37, 0x37, 0x36]) [] ∧
      parseCommand (nameSetreg ++ [0x20, 0x30, 0x20, 0x33, 0x32, 0x37, 0x37, 0x36]) = .setreg 0 32776 :=
  ⟨⟨⟨rfl, rfl, rfl⟩, by decide⟩, ⟨⟨rfl, rfl, rfl⟩, by decide⟩, ⟨rfl, rfl, rfl⟩, by decide⟩

/-- `barfreg`, `barfstack`, `logging on`, the empty line, `setreg` without arguments, and `save` where storage refuses it. -/
theorem witness_OtherCommandsLeaveTheCore :
    (AtCommand (suspended (nameBarfreg ++ [10])) nameBarfreg [] ∧ parseCommand nameBarfreg = .barfreg) ∧
      ((∀ name, parseCommand nameBarfreg ≠ .load name) ∧ ∀ i v, parseCommand nameBarfreg ≠ .setreg i v) ∧
      (AtCommand (suspended (nameBarfstack ++ [10])) nameBarfstack [] ∧ parseCommand nameBarfstack = .barfstack) ∧
      (AtCommand (suspended (nameLogging ++ 0x20 :: nameOn ++ [10])) (nameLogging ++ 0x20 :: nameOn) [] ∧
        parseCommand (nameLogging ++ 0x20 :: nameOn) = .logging true) ∧
      (AtCommand (suspended [10]) [] [] ∧ parseCommand [] = .unrecognized) ∧
      (AtCommand (suspended (nameSetreg ++ [10])) nameSetreg [] ∧ parseCommand nameSetreg = .badArguments) ∧
      ∃ s : State, AtCommand s nameSave [] ∧ parseCommand nameSave = .save [0x30, 0x30, 0x31] ∧ s.host.saveFails = true := by
  have h : parseCommand nameBarfreg = .barfreg := by decide
  exact ⟨⟨⟨rfl, rfl, rfl⟩, h⟩, by simp [h], ⟨⟨rfl, rfl, rfl⟩, by decide⟩, ⟨⟨rfl, rfl, rfl⟩, by decide⟩,
    ⟨⟨rfl, rfl, rfl⟩, by decide⟩, ⟨⟨rfl, rfl, rfl⟩, by decide⟩,
    (suspended (nameSave ++ [10])).setHost { (suspended []).host with saveFails := true }, ⟨rfl, rfl, rfl⟩, by decide, rfl⟩

/-- Both artifacts in storage and good, the dump odd, and nothing in storage (for every statement on reading a snapshot). -/
theorem witness_SnapshotIsReadUnderItsConditions :
    (Stands (storage (some record7) (some [])) [0x30, 0x30, 0x31] record7 [] ∧ HoldsSnapshot record7 [] snapshot7) ∧
      (Stands (storage (some record7) (some [0])) [0x30, 0x30, 0x31] record7 [0] ∧ ∀ x, ¬ HoldsSnapshot record7 [0] x) ∧
      (∀ lines bs, ¬ Stands (storage (some record7) none) [0x30, 0x30, 0x31] lines bs) ∧
      ∀ lines bs, ¬ Stands [] [0x30, 0x30, 0x31] lines bs := by
  have h7 : IsDecimal [0x37] 7 := ⟨by decide, by decide, rfl⟩
  have hw : IsDecimal [0x37] (7 : Word).toNat ∧ (7 : Word).toNat ≤ 32775 := ⟨h7, by decide⟩
  refine ⟨⟨⟨_, rfl, rfl, rfl⟩, ⟨[0x37], List.replicate 8 [0x37], [], rfl, rfl, h7, ?_, .nil⟩, rfl, by decide, by decide, rfl,
    by simp⟩, ⟨⟨_, rfl, rfl, rfl⟩, fun x h => absurd h.2.1 (by decide)⟩, ?_, ?_⟩
  · exact .cons hw (.cons hw (.cons hw (.cons hw (.cons hw (.cons hw (.cons hw (.cons hw .nil)))))))
  · rintro lines bs ⟨a, ha, -, hb⟩
    cases ha
    cases hb
  · rintro lines bs ⟨a, ha, -⟩
    cases ha

/-- `load` over the storages of `witness_SnapshotIsReadUnderItsConditions`. -/
theorem witness_LoadIsAllOrNothing :
    parseCommand nameLoad = .load [0x30, 0x30, 0x31] ∧ ∀ files, AtCommand (suspendedOver files (nameLoad ++ [10])) nameLoad [] ∧
      (suspendedOver files (nameLoad ++ [10])).host.files = files := ⟨by decide, fun _ => ⟨⟨rfl, rfl, rfl⟩, rfl⟩⟩

theorem witness_SaveWritesTheSnapshot :
    (suspended (nameSave ++ [10])).Inv ∧ AtCommand (suspended (nameSave ++ [10])) nameSave [] ∧
      parseCommand nameSave = .save [0x30, 0x30, 0x31] ∧ (suspended (nameSave ++ [10])).host.saveFails = false ∧
      ([1] : Line) ≠ [0x30, 0x30, 0x31] := by
  have h := boot_inv (ws := [20, 32768]) (by decide)
  exact ⟨⟨h.mem_wf, h.regs_word, h.stack_word, h.fault_iff, fun _ => rfl⟩, ⟨rfl, rfl, rfl⟩, by decide, rfl, by decide⟩

/-- A `save`, and a `load` by a core over the storage that the `save` left. -/
theorem witness_SnapshotRoundTrip :
    (suspended (nameSave ++ [10])).Inv ∧ (suspended (nameSave ++ [10])).host.saveFails = false ∧
      AtCommand (suspended (nameSave ++ [10])) nameSave [] ∧ parseCommand nameSave = .save [0x30, 0x30, 0x31] ∧
      parseCommand nameLoad = .load [0x30, 0x30, 0x31] ∧
      ∃ t u : State, step (suspended (nameSave ++ [10])) = .next t ∧ AtCommand u nameLoad [] ∧ u.host.files = t.host.files := by
  have h := boot_inv (ws := [20, 32768]) (by decide)
  exact ⟨⟨h.mem_wf, h.regs_word, h.stack_word, h.fault_iff, fun _ => rfl⟩, rfl, ⟨rfl, rfl, rfl⟩, by decide, by decide,
    _, suspendedOver (storeArtifact [] (artifactOf [0x30, 0x30, 0x31] (suspended []))) (nameLoad ++ [10]), rfl,
    ⟨rfl, rfl, rfl⟩, rfl⟩

theorem witness_LaunchLoadsTheImage :
    (([20, 0, 0, 128] : List Byte).length % 2 = 0 ∧ ([20, 0, 0, 128] : List Byte).length ≤ 65536) ∧
      ([20, 0, 0] : List Byte).length % 2 = 1 ∧ (List.replicate 65537 (0 : Byte)).length % 2 = 1 ∧
      (List.replicate 65538 (0 : Byte)).length % 2 = 0 ∧ 65536 < (List.replicate 65538 (0 : Byte)).length :=
  ⟨by decide, by decide, by rw [List.length_replicate], by rw [List.length_replicate], by rw [List.length_replicate]; decide⟩

theorem witness_LaunchFromSnapshot :
    (∃ x, readSnapshot [{ name := [1], record := some (List.replicate 9 [0x37]), dump := some [] }] [1] = .ok x) ∧
      ∃ e, readSnapshot [] [1] = .error e := ⟨⟨_, rfl⟩, ⟨_, rfl⟩⟩

end Sys2Proof.Tests
end

section
/-! SUPPORT. The parameters of the launch along a step (`00_scope.md` R5). -/

namespace Sys2Proof.Machine

/-- No instruction's effect writes the parameters: each is a chain of state operations that all keep them. -/
theorem Effect.params_eq {i : Instr} {s t : State} (h : Effect i s t) : t.params = s.params := by
  cases h <;> simp only [State.raise_params, State.stop_params, State.setReg_params, State.setPc_params,
    State.advance_params, State.setStack_params, State.setMem_params, State.emit_params, State.setInput_params,
    State.setSusp_params]

/-- Settles O45: an instruction's effect, a fetch's fault and a debug command each keep the parameters. -/
theorem parametersAreFixed : Obligations.ParametersAreFixed := by
  intro s t h
  obtain ⟨-, ⟨-, i, -, he⟩ | ⟨-, k, rfl⟩ | ⟨-, line, rest, -, rfl⟩⟩ := step_cases h
  · exact he.params_eq
  · exact s.raise_params k _
  · obtain ⟨-, -, -, -, hp⟩ := runCommand_leaves (parseCommand line) (s.setInput rest)
    rw [State.setSusp_params, hp, State.setInput_params]

end Sys2Proof.Machine
end

section
/-! SUPPORT. What every step keeps (`State.Inv`): one lemma per state operation, then an instruction's effect, a debug command,
and the step; and the states that meet it to begin with, after reset and after a launch. -/

namespace Sys2Proof.Machine

namespace State.Inv

variable {s : State}

/-- A running core has no fault recorded. -/
theorem fault_eq_none (h : s.Inv) (hr : s.run = .running) : s.fault = none := by
  by_contra hf
  have := h.fault_iff.1 hf
  simp_all

/-- The program counter is no part of the invariant. -/
theorem setPc (h : s.Inv) (p : Nat) : (s.setPc p).Inv :=
  ⟨h.mem_wf, h.regs_word, h.stack_word, h.fault_iff, h.debug_running⟩

/-- Going on to the next instruction. -/
theorem advance (h : s.Inv) (k : Nat) : (s.advance k).Inv := h.setPc _

/-- Writing a Word to a register. -/
theorem setReg (h : s.Inv) (d : Fin 8) {v : Word} (hv : IsWord v) : (s.setReg d v).Inv :=
  ⟨h.mem_wf, State.setReg_isWord h.regs_word d hv, h.stack_word, h.fault_iff, h.debug_running⟩

/-- A stack of Words in place of the stack. -/
theorem setStack (h : s.Inv) {st : List Word} (hst : ∀ w ∈ st, IsWord w) : (s.setStack st).Inv :=
  ⟨h.mem_wf, h.regs_word, hst, h.fault_iff, h.debug_running⟩

/-- A Word on top of the stack. -/
theorem pushed (h : s.Inv) {v : Word} (hv : IsWord v) : (s.setStack (s.stack ++ [v])).Inv := by
  refine h.setStack fun w hw => ?_
  rcases List.mem_append.1 hw with hw | hw
  · exact h.stack_word w hw
  · exact List.mem_singleton.1 hw ▸ hv

/-- The top of the stack, and what is below it. -/
theorem of_stack_eq (h : s.Inv) {st : List Word} {v : Word} (hs : s.stack = st ++ [v]) :
    IsWord v ∧ ∀ w ∈ st, IsWord w :=
  ⟨h.stack_word v (by simp [hs]), fun w hw => h.stack_word w (by simp [hs, hw])⟩

/-- Another word store in canonical form. -/
theorem setMem (h : s.Inv) {m : Memory} (hm : m.wf) : (s.setMem m).Inv :=
  ⟨hm, h.regs_word, h.stack_word, h.fault_iff, h.debug_running⟩

/-- The streams are no part of the invariant: a byte sent. -/
theorem emit (h : s.Inv) (b : Byte) : (s.emit b).Inv :=
  ⟨h.mem_wf, h.regs_word, h.stack_word, h.fault_iff, h.debug_running⟩

/-- The streams are no part of the invariant: bytes taken or offered. -/
theorem setInput (h : s.Inv) (bs : List Byte) : (s.setInput bs).Inv :=
  ⟨h.mem_wf, h.regs_word, h.stack_word, h.fault_iff, h.debug_running⟩

/-- The host's side is no part of the invariant. -/
theorem setHost (h : s.Inv) (x : HostSide) : (s.setHost x).Inv :=
  ⟨h.mem_wf, h.regs_word, h.stack_word, h.fault_iff, h.debug_running⟩

/-- A running core may be suspended, or resumed. -/
theorem setSusp (h : s.Inv) (hr : s.run = .running) (v : Suspension) : (s.setSusp v).Inv :=
  ⟨h.mem_wf, h.regs_word, h.stack_word, h.fault_iff, fun _ => hr⟩

/-- The end of a run that is not suspended: there is no fault to record. -/
theorem stop (h : s.Inv) (hr : s.run = .running) (hs : s.susp = .none) : s.stop.Inv :=
  ⟨h.mem_wf, h.regs_word, h.stack_word, by simp [h.fault_eq_none hr], by simp [hs]⟩

/-- A fault taken by an unsuspended core (`60_exceptions.md` R203). -/
theorem raise (h : s.Inv) (hs : s.susp = .none) (k : FaultKind) (op : Option Word) : (s.raise k op).Inv :=
  ⟨h.mem_wf, h.regs_word, h.stack_word, by simp, by simp [hs]⟩

/-- A snapshot that was read completely (`60_exceptions.md` R217). -/
theorem restore (h : s.Inv) {files : List Artifact} {name : Line} {x : Snapshot} (hx : readSnapshot files name = .ok x) :
    (s.restore x).Inv := by
  obtain ⟨a, ha⟩ := readSnapshot_ok hx
  obtain ⟨hm, hr, hst⟩ := parseArtifact_ok ha
  exact ⟨hm, hr, hst, h.fault_iff, h.debug_running⟩

/-- What a debug command leaves (`60_exceptions.md` R216 to R221). -/
theorem runCommand (h : s.Inv) (c : Command) : (runCommand c s).Inv := by
  rcases runCommand_cases c s with ⟨_, _, -, hx, e⟩ | ⟨i, v, hi, -, hv, e⟩ | ⟨x, e⟩ <;> rw [e]
  · exact h.restore hx
  · exact h.setReg ⟨i, hi⟩ (by simp only [IsWord, BitVec.toNat_ofNat]; omega)
  · exact h.setHost x

end State.Inv

/-- The return address that `call` pushes is a Word while the `call` lies in memory. -/
theorem isWord_return_address {p : Nat} (hp : p + 1 < 32768) : IsWord (BitVec.ofNat 16 (p + 2)) := by
  simp only [IsWord, BitVec.toNat_ofNat]
  omega

/-- A fetched instruction lies in the first 32768 cells. -/
theorem fetch_in_bounds {i : Instr} {s : State} (hs : s.Inv) (hf : fetch s = .ok i) :
    s.pc + i.operands.length < 32768 :=
  Nat.lt_of_lt_of_le (fetch_eq_ok hf).2 hs.mem_wf.1

/-- An instruction that a running, unsuspended core fetched keeps the invariant. -/
theorem Effect.inv {i : Instr} {s t : State} (h : Effect i s t) (hs : s.Inv) (hr : s.run = .running)
    (hn : s.susp = .none) (hf : fetch s = .ok i) : t.Inv := by
  cases h with
  | raised k => exact hs.raise hn k _
  | stopped => exact hs.stop hr hn
  | wrote d v k _ _ _ hv => exact (hs.setReg d (hv hs.regs_word)).advance k
  | popped d v st _ hst =>
    obtain ⟨hv, hst⟩ := hs.of_stack_eq hst
    exact ((hs.setStack hst).setReg d hv).advance 1
  | pushed a v _ ha => exact (hs.pushed (State.isWord_of_resolve hs.regs_word ha)).advance 1
  | jumped a t => exact hs.setPc t.toNat
  | passed k => exact hs.advance k
  | called a t hi =>
    subst hi
    exact (hs.pushed (isWord_return_address (fetch_in_bounds hs hf))).setPc t.toNat
  | returned t st _ hst => exact (hs.setStack (hs.of_stack_eq hst).2).setPc t.toNat
  | stored a b addr v _ _ _ hlt => exact (hs.setMem (Memory.setCell_wf hs.mem_wf v hlt)).advance 2
  | sent a v => exact (hs.emit _).advance 1
  | took d c rest => exact ((hs.setInput rest).setReg d (isWord_byte c)).advance 1
  | suspended d rest => exact (hs.setInput rest).setSusp hr .debug

/-- Settles O38: an instruction's effect, a fetch's fault and a debug command each keep the invariant. -/
theorem stepKeepsTheInvariant : Obligations.StepKeepsTheInvariant := by
  intro s t hs h
  obtain ⟨hr, ⟨hn, i, hf, he⟩ | ⟨hn, k, rfl⟩ | ⟨-, line, rest, -, rfl⟩⟩ := step_cases h
  · exact he.inv hs hr hn hf
  · exact hs.raise hn k _
  · have hrun : (runCommand (parseCommand line) (s.setInput rest)).run = .running :=
      (runCommand_leaves _ _).1.trans hr
    exact ((hs.setInput rest).runCommand _).setSusp hrun .none

/-- A state just constructed over a word store in canonical form (`10_state.md` R40). -/
theorem State.construct_inv (p : Params) {m : Memory} (hm : m.wf) : (State.construct p m).Inv where
  mem_wf := hm
  regs_word r := by simp
  stack_word := by simp [State.construct]
  fault_iff := by simp [State.construct]
  debug_running := by simp [State.construct]

/-- Settles O39: the reset state is constructed over the empty word store, which is in canonical form. -/
theorem resetMeetsTheInvariant : Obligations.ResetMeetsTheInvariant := State.construct_inv _ Memory.empty_wf

/-- Settles O57: what `State.construct` gives. -/
theorem resetValues : Obligations.ResetValues :=
  ⟨rfl, rfl, rfl, State.construct_reg _ _, rfl, rfl, rfl, rfl⟩

/-- Settles O55: the launch constructs the state over the image's word store. -/
theorem launchLoadsTheImage : Obligations.LaunchLoadsTheImage := by
  refine fun p image => ⟨fun he hl => ?_, fun ho => ?_, fun he hl => ?_⟩
  · have hcell (k : Nat) (hk : k < image.length / 2) : ∃ w, (Memory.ofImage image).read k = some w ∧
        w.toNat = (image.getD (2 * k) 0).toNat + 256 * (image.getD (2 * k + 1) 0).toNat :=
      ⟨_, Memory.read_ofImage image hk, wordOfBytes_toNat _ _⟩
    refine ⟨State.construct p (Memory.ofImage image), ?_, rfl, hcell, rfl, rfl, rfl, State.construct_reg p _, rfl, rfl,
      rfl, State.construct_inv p (Memory.ofImage_wf he hl)⟩
    rw [State.launch, if_neg (by omega), if_neg (by omega)]
  · rw [State.launch, if_pos (by omega)]
  · rw [State.launch, if_neg (by omega), if_pos hl]

end Sys2Proof.Machine
end

section
/-! SUPPORT. What an instruction's effect leaves unchanged (`10_state.md` R23, R29, R33, R41): one lemma per piece of state, and
the frames of the instruction families put together from them. -/

namespace Sys2Proof

/-- The instructions that work on the stack (`10_state.md` R33). -/
def Instr.UsesStack (i : Instr) : Prop := i = .ret ∨ ∃ a, i = .push a ∨ i = .pop a ∨ i = .call a

/-- The instructions that may go elsewhere than to the next instruction (`10_state.md` R26). -/
def Instr.Transfers (i : Instr) : Prop :=
  i = .ret ∨ (∃ a, i = .jmp a ∨ i = .call a) ∨ ∃ a b, i = .jt a b ∨ i = .jf a b

/-- The instructions that have no effect but on control. -/
def Instr.IsControl (i : Instr) : Prop :=
  i = .halt ∨ i = .noop ∨ (∃ a, i = .jmp a) ∨ ∃ a b, i = .jt a b ∨ i = .jf a b

/-- When an instruction has a destination register. -/
theorem Instr.destReg_eq_some {i : Instr} {d : Fin 8} : i.destReg = some d ↔ i.dest = some (.reg d) := by
  unfold Instr.destReg
  split <;> simp_all

end Sys2Proof

namespace Sys2Proof.Machine

/-- One memory, one reading of every byte. -/
theorem SameMemory.of_eq {s t : State} (h : t.mem = s.mem) : SameMemory s t := fun a => by rw [h]

namespace Effect

variable {i : Instr} {s t : State}

/-- Every register but the destination is as before (`10_state.md` R23). -/
theorem reg_eq (h : Effect i s t) {r : Fin 8} (hr : i.destReg ≠ some r) : t.reg r = s.reg r := by
  cases h with
  | wrote d v k hi => exact s.setReg_reg_other v fun e => hr (e ▸ hi)
  | popped d v st hi => exact (s.setStack st).setReg_reg_other v fun e => hr (by rw [hi, e]; rfl)
  | took d c rest hi => exact (s.setInput rest).setReg_reg_other _ fun e => hr (by rw [hi, e]; rfl)
  | _ => rfl

/-- The stack is as before, or one element longer or shorter at its top (`10_state.md` R33). -/
theorem stack_cases (h : Effect i s t) :
    t.stack = s.stack ∨ (∃ v, t.stack = s.stack ++ [v]) ∨ ∃ v, s.stack = t.stack ++ [v] := by
  cases h with
  | popped d v st _ hs => exact .inr (.inr ⟨v, hs⟩)
  | returned v st _ hs => exact .inr (.inr ⟨v, hs⟩)
  | pushed a v => exact .inr (.inl ⟨v, rfl⟩)
  | called => exact .inr (.inl ⟨_, rfl⟩)
  | _ => exact .inl rfl

/-- Only the instructions of the stack change it (`10_state.md` R33). -/
theorem stack_eq (h : Effect i s t) (hi : ¬ i.UsesStack) : t.stack = s.stack := by
  cases h with
  | popped d v st e => exact absurd (.inr ⟨_, .inr (.inl e)⟩) hi
  | returned v st e => exact absurd (.inl e) hi
  | pushed a v e => exact absurd (.inr ⟨a, .inl e⟩) hi
  | called a v e => exact absurd (.inr ⟨a, .inr (.inr e)⟩) hi
  | _ => rfl

/-- Only `wmem` changes memory. -/
theorem mem_eq (h : Effect i s t) (hi : ∀ a b, i ≠ .wmem a b) : t.mem = s.mem := by
  cases h with
  | stored a b addr v e => exact absurd e (hi a b)
  | _ => rfl

/-- `wmem` sets at most the cell that its first operand resolves to. -/
theorem mem_of_wmem {a b : Operand} (h : Effect (.wmem a b) s t) :
    t.mem = s.mem ∨ ∃ addr v, s.resolve a = .ok addr ∧ t.mem = s.mem.setCell addr.toNat v := by
  cases h with
  | stored a' b' addr v e ha =>
    cases e
    exact .inr ⟨addr, v, ha, rfl⟩
  | _ => exact .inl rfl

/-- No instruction changes N. -/
theorem mem_size_eq (h : Effect i s t) : t.mem.size = s.mem.size := by cases h <;> rfl

/-- Only `in` suspends the core. -/
theorem susp_eq (h : Effect i s t) (hi : ∀ a, i ≠ .inp a) : t.susp = s.susp := by
  cases h with
  | suspended d rest e => exact absurd e (hi _)
  | _ => rfl

/-- Only `in` takes bytes from the input. -/
theorem input_eq (h : Effect i s t) (hi : ∀ a, i ≠ .inp a) : t.input = s.input := by
  cases h with
  | took d c rest e => exact absurd e (hi _)
  | suspended d rest e => exact absurd e (hi _)
  | _ => rfl

/-- Only `out` sends a byte. -/
theorem output_eq (h : Effect i s t) (hi : ∀ a, i ≠ .out a) : t.output = s.output := by
  cases h with
  | sent a v e => exact absurd e (hi a)
  | _ => rfl

/-- No instruction changes the host's side (`10_state.md` R41). -/
theorem host_eq (h : Effect i s t) : t.host = s.host := by cases h <;> rfl

/-- The run state and the fault record change only where the run ends: in `halt`, a `ret` on an empty stack, or a fault. -/
theorem run_fault_cases (h : Effect i s t) :
    (t.run = s.run ∧ t.fault = s.fault) ∨ ((i = .halt ∨ i = .ret) ∧ t = s.stop) ∨ ∃ k, t = s.raise k (some i.opcode) := by
  cases h with
  | raised k => exact .inr (.inr ⟨k, rfl⟩)
  | stopped hi => exact .inr (.inl ⟨hi.imp_right And.left, rfl⟩)
  | _ => exact .inl ⟨rfl, rfl⟩

/-- An instruction that is neither `halt` nor `ret` ends the run only in a fault. -/
theorem run_fault_eq_or_raised (h : Effect i s t) (hh : i ≠ .halt) (hr : i ≠ .ret) :
    (t.run = s.run ∧ t.fault = s.fault) ∨ ∃ k, t = s.raise k (some i.opcode) := by
  obtain hk | ⟨rfl | rfl, -⟩ | hf := h.run_fault_cases
  · exact .inl hk
  · exact absurd rfl hh
  · exact absurd rfl hr
  · exact .inr hf

/-- Where pc goes: it stays at an instruction that ends the run or suspends the core, goes past any other, or to a transfer's
target, which is a Word when the registers and the stack hold Words (`10_state.md` R26). -/
theorem pc_cases (h : Effect i s t) :
    (t.pc = s.pc ∧ (t.run ≠ .running ∨ t.susp = .debug)) ∨
    (t.run = s.run ∧ t.susp = s.susp ∧ (t.pc = s.pc + 1 + i.operands.length ∨
      (i.Transfers ∧ (s.Inv → t.pc ≤ 32775)))) := by
  cases h with
  | raised | stopped => exact .inl ⟨rfl, .inl (by simp)⟩
  | suspended => exact .inl ⟨rfl, .inr rfl⟩
  | wrote d v k _ _ hk => exact .inr ⟨rfl, rfl, .inl (by simp [hk])⟩
  | passed k _ hk => exact .inr ⟨rfl, rfl, .inl (by simp [hk])⟩
  | popped _ _ _ hi | pushed _ _ hi | stored _ _ _ _ hi | sent _ _ hi | took _ _ _ hi =>
    exact .inr ⟨rfl, rfl, .inl (by simp [hi, Instr.operands])⟩
  | jumped a t hi ha =>
    refine .inr ⟨rfl, rfl, .inr ⟨?_, fun hs => State.isWord_of_resolve hs.regs_word ha⟩⟩
    exact .inr (hi.imp (fun e => ⟨a, .inl e⟩) fun ⟨c, e⟩ => ⟨c, a, e⟩)
  | called a t hi ha =>
    exact .inr ⟨rfl, rfl, .inr ⟨.inr (.inl ⟨a, .inr hi⟩), fun hs => State.isWord_of_resolve hs.regs_word ha⟩⟩
  | returned t st hi hst =>
    exact .inr ⟨rfl, rfl, .inr ⟨.inl hi, fun hs => hs.stack_word t (by simp [hst])⟩⟩

/-- A control instruction faults, halts, or only moves pc. -/
theorem of_isControl (h : Effect i s t) (hi : i.IsControl) :
    (∃ k, t = s.raise k (some i.opcode)) ∨ (i = .halt ∧ t = s.stop) ∨ ∃ p, t = s.setPc p := by
  have hne (j : Instr) (hj : ¬ j.IsControl) : i ≠ j := fun e => hj (e ▸ hi)
  cases h with
  | raised k => exact .inl ⟨k, rfl⟩
  | stopped e => exact .inr (.inl ⟨e.resolve_right fun e => hne .ret (by simp [Instr.IsControl]) e.1, rfl⟩)
  | jumped | passed => exact .inr (.inr ⟨_, rfl⟩)
  | wrote d v k e => rcases hi with rfl | rfl | ⟨a, rfl⟩ | ⟨a, b, rfl | rfl⟩ <;> cases e
  | popped _ _ _ e | pushed _ _ e | called _ _ e | returned _ _ e | stored _ _ _ _ e | sent _ _ e | took _ _ _ e
  | suspended _ _ e => exact absurd e (hne _ (by simp [Instr.IsControl]))

end Effect

/-- Settles O11: where pc goes, read off an instruction's effect. -/
theorem programCounterAdvance : Obligations.ProgramCounterAdvance := by
  intro i s t hr hs h
  obtain ⟨hpc, hend⟩ | ⟨hrun, hsusp, hpc⟩ := (exec_effect h).pc_cases
  · refine ⟨fun hr' hs' => ?_, fun _ => hpc⟩
    rcases hend with he | he
    · exact absurd hr' he
    · simp [hs'] at he
  · refine ⟨fun _ _ hret hj hc => ?_, fun hend => ?_⟩
    · rcases hpc with hpc | ⟨hret' | ⟨a, e⟩ | ⟨a, b, e⟩, -⟩
      · exact hpc
      · exact absurd hret' hret
      · exact absurd e (not_or.2 (hj a))
      · exact absurd e (not_or.2 (hc a b))
    · rw [hrun, hsusp, hr, hs] at hend
      simp at hend

/-- Settles O40: pc stays, goes past an instruction that lies in memory, or to a Word; a fetch's fault leaves it. -/
theorem programCounterBound : Obligations.ProgramCounterBound := by
  intro s t hs hn h
  obtain ⟨-, ⟨-, i, hf, he⟩ | ⟨-, k, rfl⟩ | ⟨hd, -⟩⟩ := step_cases h
  · obtain ⟨hpc, -⟩ | ⟨-, -, hpc | ⟨-, hpc⟩⟩ := he.pc_cases
    · exact .inl hpc
    · have hlt := fetch_in_bounds hs hf
      exact .inr (by omega)
    · exact .inr (hpc hs)
  · exact .inl rfl
  · simp [hn] at hd

/-- Settles O20: such an instruction writes its register with a result that is a literal, or with a byte. -/
theorem resultsAreLiterals : Obligations.ResultsAreLiterals := by
  intro i d s t hd h hr hs hr' hs' hset hpop hmod
  have hdest : i.dest = some (.reg d) := Instr.destReg_eq_some.1 hd
  cases exec_effect h with
  | raised | stopped => simp at hr'
  | suspended => simp at hs'
  | wrote d' v k hi _ _ _ hl =>
    obtain rfl : d' = d := by simpa [hi] using hd
    rw [State.advance_reg, State.setReg_reg_same]
    rcases hl with ⟨a, b, rfl | rfl⟩ | ⟨a, b, c, rfl⟩ | hv
    · exact absurd (by cases hdest; rfl) (hset b).1
    · exact absurd (by cases hdest; rfl) (hset b).2
    · exact absurd (by cases hdest; rfl) (hmod b c)
    · exact hv
  | popped d' v st hi =>
    subst hi
    exact absurd (by cases hdest; rfl) hpop
  | took d' c rest hi =>
    subst hi
    cases hdest
    rw [State.advance_reg, State.setReg_reg_same, BitVec.toNat_setWidth]
    omega
  | jumped a t hi => rcases hi with rfl | ⟨c, rfl | rfl⟩ <;> simp [Instr.dest] at hdest
  | passed k hi => rcases hi with rfl | ⟨a, b, rfl | rfl⟩ <;> simp [Instr.dest] at hdest
  | pushed _ _ hi | called _ _ hi | returned _ _ hi | stored _ _ _ _ hi | sent _ _ hi =>
    simp [hi, Instr.dest] at hdest

/-- Settles O33: such an instruction has a destination, so it is none of the stack's, `wmem`, `out`, `halt` or `ret`. -/
theorem registerWriterFrame : Obligations.RegisterWriterFrame := by
  intro i s t hd hn h
  have he := exec_effect h
  have hstack : ¬ i.UsesStack := by
    rintro (rfl | ⟨a, rfl | rfl | rfl⟩)
    · simp [Instr.dest] at hd
    · simp [Instr.dest] at hd
    · exact (hn a).1 rfl
    · simp [Instr.dest] at hd
  have hne (j : Instr) (hj : j.dest = none) : i ≠ j := by
    rintro rfl
    simp [hj] at hd
  have hmem := he.mem_eq fun a b => hne (.wmem a b) rfl
  exact ⟨fun r => he.reg_eq, he.stack_eq hstack, .of_eq hmem, he.mem_size_eq, he.susp_eq fun a => (hn a).2, he.params_eq,
    he.input_eq fun a => (hn a).2, he.output_eq fun a => hne (.out a) rfl, he.host_eq,
    he.run_fault_eq_or_raised (hne .halt rfl) (hne .ret rfl)⟩

/-- Settles O34: such an instruction is no `wmem`, `in`, `out` or `halt`. -/
theorem stackInstructionFrame : Obligations.StackInstructionFrame := by
  intro i s t hi h
  have he := exec_effect h
  have hne (j : Instr) (hj : ¬ j.UsesStack) : i ≠ j := fun e => hj (e ▸ hi)
  have hmem := he.mem_eq fun a b => hne (.wmem a b) (by simp [Instr.UsesStack])
  have hinp (a : Operand) := hne (.inp a) (by simp [Instr.UsesStack])
  refine ⟨fun r => he.reg_eq, he.stack_cases, .of_eq hmem, he.mem_size_eq, he.susp_eq hinp, he.params_eq,
    he.input_eq hinp, he.output_eq fun a => hne (.out a) (by simp [Instr.UsesStack]), he.host_eq, ?_⟩
  obtain hk | ⟨rfl | hr, ht⟩ | hf := he.run_fault_cases
  · exact .inl hk
  · exact absurd rfl (hne .halt (by simp [Instr.UsesStack]))
  · exact .inr (.inl ⟨hr, ht⟩)
  · exact .inr (.inr hf)

/-- Settles O35: such an instruction faults, halts, or only moves pc. -/
theorem controlInstructionFrame : Obligations.ControlInstructionFrame := by
  intro i s t hi h
  obtain ⟨k, rfl⟩ | ⟨hh, rfl⟩ | ⟨p, rfl⟩ := (exec_effect h).of_isControl hi
  · exact ⟨rfl, fun _ => rfl, .of_eq rfl, .inr (.inr ⟨k, rfl⟩)⟩
  · exact ⟨rfl, fun _ => rfl, .of_eq rfl, .inr (.inl ⟨hh, rfl⟩)⟩
  · exact ⟨rfl, fun _ => rfl, .of_eq rfl, .inl ⟨rfl, rfl⟩⟩

/-- Settles O36: such an instruction is none of the stack's, no `wmem`, `halt` or `ret`. -/
theorem consoleInstructionFrame : Obligations.ConsoleInstructionFrame := by
  rintro i s t ⟨a, hi⟩ h
  have he := exec_effect h
  have hstack : ¬ i.UsesStack := by rcases hi with rfl | rfl <;> simp [Instr.UsesStack]
  have hwmem (a b) : i ≠ .wmem a b := by rcases hi with rfl | rfl <;> simp
  have hhalt : i ≠ .halt := by rcases hi with rfl | rfl <;> simp
  have hret : i ≠ .ret := by rcases hi with rfl | rfl <;> simp
  refine ⟨fun r => he.reg_eq, he.stack_eq hstack, .of_eq (he.mem_eq hwmem), he.mem_size_eq, he.params_eq, he.host_eq,
    ?_, ?_, he.run_fault_eq_or_raised hhalt hret⟩
  · rintro ⟨b, rfl⟩
    exact ⟨he.input_eq (by simp), he.susp_eq (by simp)⟩
  · rintro ⟨b, rfl⟩
    exact he.output_eq (by simp)

/-- Settles O37: a `wmem` sets at most the cell its address operand resolves to. -/
theorem wmemFrame : Obligations.WmemFrame := by
  intro a b s t h
  have he := exec_effect h
  refine ⟨fun addr ha k h₀ h₁ => ?_, fun hno => ?_, he.mem_size_eq, fun r => he.reg_eq (by simp [Instr.destReg, Instr.dest]),
    he.stack_eq (by simp [Instr.UsesStack]), he.susp_eq (by simp), he.params_eq, he.input_eq (by simp),
    he.output_eq (by simp), he.host_eq, he.run_fault_eq_or_raised (by simp) (by simp)⟩
  · obtain hm | ⟨addr', v, ha', hm⟩ := he.mem_of_wmem
    · rw [hm]
    · obtain rfl : addr = addr' := by simpa [ha] using ha'
      rw [hm, Memory.byte_setCell_other s.mem v h₀ h₁]
  · obtain hm | ⟨addr, v, ha, -⟩ := he.mem_of_wmem
    · exact .of_eq hm
    · exact absurd ha (hno addr)

/-- Settles O42: an instruction writes only its destination register; of the commands, `setreg` and `load` write any. -/
theorem registersChangeOnlyByTheirWriters : Obligations.RegistersChangeOnlyByTheirWriters := by
  intro s t r h hne
  obtain ⟨hr, ⟨hn, i, hf, he⟩ | ⟨-, k, rfl⟩ | ⟨hd, line, rest, hl, rfl⟩⟩ := step_cases h
  · exact .inl ⟨hn, i, hf, by_contra fun hi => hne (he.reg_eq hi)⟩
  · exact absurd (s.raise_reg k _ r) hne
  · refine .inr ⟨line, rest, ⟨hr, hd, hl⟩, ?_⟩
    rw [State.setSusp_reg] at hne
    obtain ⟨name, x, hc, -⟩ | ⟨j, v, hj, hc, -, e⟩ | ⟨x, e⟩ := runCommand_cases (parseCommand line) (s.setInput rest)
    · exact .inr ⟨name, hc⟩
    · have hrj : r = ⟨j, hj⟩ := by_contra fun hrj => hne (by rw [e, State.setReg_reg_other _ _ hrj, State.setInput_reg])
      exact .inl ⟨v, by rw [hc, hrj]⟩
    · exact absurd (by rw [e, State.setHost_reg, State.setInput_reg]) hne

/-- Settles O43: of the instructions only those of the stack change it, and of the commands only `load`. -/
theorem stackChangesOnlyByItsInstructions : Obligations.StackChangesOnlyByItsInstructions := by
  intro s t h hne
  obtain ⟨hr, ⟨hn, i, hf, he⟩ | ⟨-, k, rfl⟩ | ⟨hd, line, rest, hl, rfl⟩⟩ := step_cases h
  · exact .inl ⟨hn, i, hf, by_contra fun hi => hne (he.stack_eq hi)⟩
  · exact absurd (s.raise_stack k _) hne
  · rw [State.setSusp_stack] at hne
    obtain ⟨name, x, hc, -⟩ | ⟨j, v, hj, -, -, e⟩ | ⟨x, e⟩ := runCommand_cases (parseCommand line) (s.setInput rest)
    · exact .inr ⟨line, rest, name, ⟨hr, hd, hl⟩, hc⟩
    · exact absurd (by rw [e, State.setReg_stack, State.setInput_stack]) hne
    · exact absurd (by rw [e, State.setHost_stack, State.setInput_stack]) hne

end Sys2Proof.Machine
end

section
/-! SUPPORT. Instructions and the host's side of the debug port (`10_state.md` R41, `60_exceptions.md` R220): each operation that
the meanings are made of does the same under another host's side, and leaves that one alone. -/

namespace Sys2Proof.Machine

/-- An outcome with another host's side in its next state. -/
def underHost (h : HostSide) : Host.Outcome State Fault Refusal → Host.Outcome State Fault Refusal
  | .next t => .next (t.setHost h)
  | .fault f => .fault f
  | .refused r => .refused r

namespace State

variable (s : State) (h : HostSide)

/-- Resolving an operand. -/
@[simp] theorem setHost_resolve (a : Operand) : (s.setHost h).resolve a = s.resolve a := by cases a <;> rfl

/-- The address of the next instruction. -/
@[simp] theorem setHost_next (k : Nat) : (s.setHost h).next k = s.next k := rfl

/-- Pushing. -/
theorem setHost_push (v : Word) : (s.setHost h).push v = (s.push v).map (·.setHost h) := by
  show (if s.stackFull then _ else _) = _
  rw [push]
  split <;> rfl

/-- Popping. -/
theorem setHost_popTop : (s.setHost h).popTop = s.popTop.map (Prod.map id (·.setHost h)) := by
  simp only [popTop, setHost_stack]
  cases s.stack.getLast? <;> rfl

/-- Storing to memory. -/
theorem setHost_writeMem (a : Nat) (v : Word) :
    (s.setHost h).writeMem a v = (s.writeMem a v).map (·.setHost h) := by
  simp only [writeMem, setHost_mem]
  cases s.mem.write a v <;> rfl

/-- Taking the state or the fault of a handler. -/
theorem setHost_finish (op : Word) (e : Except FaultKind State) :
    (s.setHost h).finish op (e.map (·.setHost h)) = underHost h (s.finish op e) := by cases e <;> rfl

/-- Writing a register from one value. -/
theorem setHost_writeUnary (a b : Operand) (f : Word → Except FaultKind Word) :
    (s.setHost h).writeUnary a b f = (s.writeUnary a b f).map (·.setHost h) := by
  simp only [writeUnary, setHost_resolve]
  cases destination a with
  | error k => rfl
  | ok d =>
    cases s.resolve b with
    | error k => rfl
    | ok vb => cases hf : f vb <;> simp [bind, Except.bind, hf] <;> rfl

/-- Writing a register from two values. -/
theorem setHost_writeBinary (a b c : Operand) (f : Word → Word → Except FaultKind Word) :
    (s.setHost h).writeBinary a b c f = (s.writeBinary a b c f).map (·.setHost h) := by
  simp only [writeBinary, setHost_resolve]
  cases destination a with
  | error k => rfl
  | ok d =>
    cases s.resolve b with
    | error k => rfl
    | ok vb =>
      cases s.resolve c with
      | error k => rfl
      | ok vc => cases hf : f vb vc <;> simp [bind, Except.bind, hf] <;> rfl

/-- Jumping on a condition. -/
theorem setHost_jumpIf (p : Word → Bool) (a b : Operand) :
    (s.setHost h).jumpIf p a b = (s.jumpIf p a b).map (·.setHost h) := by
  simp only [jumpIf, setHost_resolve]
  cases s.resolve a with
  | error k => rfl
  | ok v => cases hp : p v <;> cases s.resolve b <;> simp [bind, Except.bind, hp] <;> rfl

end State

/-- An instruction under another host's side: the same outcome, with that host's side in it. -/
theorem exec_setHost (i : Instr) (s : State) (h : HostSide) : exec i (s.setHost h) = underHost h (exec i s) := by
  cases i with
  | halt | noop => rfl
  | set a b | not a b | rmem a b => exact (congrArg _ (s.setHost_writeUnary h a b _)).trans (s.setHost_finish h _ _)
  | eq a b c | gt a b c | add a b c | mult a b c | mod a b c | and a b c | or a b c =>
    exact (congrArg _ (s.setHost_writeBinary h a b c _)).trans (s.setHost_finish h _ _)
  | jt a b | jf a b => exact (congrArg _ (s.setHost_jumpIf h _ a b)).trans (s.setHost_finish h _ _)
  | jmp a | out a =>
    simp only [exec, execJmp, execOut, State.setHost_resolve]
    cases s.resolve a <;> rfl
  | push a =>
    simp only [exec, execPush, State.setHost_resolve]
    cases s.resolve a with
    | error k => rfl
    | ok v =>
      simp only [bind, Except.bind, State.setHost_push]
      cases s.push v <;> rfl
  | call a =>
    simp only [exec, execCall, State.setHost_resolve]
    cases s.resolve a with
    | error k => rfl
    | ok t =>
      simp only [bind, Except.bind, State.setHost_push, State.setHost_next]
      cases s.push (BitVec.ofNat 16 (s.next 1)) <;> rfl
  | pop a =>
    simp only [exec, execPop, State.setHost_popTop]
    cases destination a with
    | error k => rfl
    | ok d => cases s.popTop <;> rfl
  | ret =>
    simp only [exec, execRet, State.setHost_popTop]
    cases s.popTop <;> rfl
  | wmem a b =>
    simp only [exec, execWmem, State.setHost_resolve]
    cases s.resolve a with
    | error k => rfl
    | ok addr =>
      cases s.resolve b with
      | error k => rfl
      | ok v =>
        simp only [bind, Except.bind, State.setHost_writeMem]
        cases s.writeMem addr.toNat v <;> rfl
  | inp a =>
    simp only [exec, execInp, State.setHost_input, State.setHost_params]
    cases destination a with
    | error k => rfl
    | ok d =>
      cases s.input with
      | nil => rfl
      | cons c rest =>
        by_cases hc : c = s.params.sentinel <;> simp only [hc, ↓reduceIte] <;> rfl

/-- Settles O46: the statement writes out `exec_setHost`, which goes through the operations of each meaning. -/
theorem instructionsIgnoreTheHostSide : Obligations.InstructionsIgnoreTheHostSide := by
  intro i s h
  rw [show exec i { s with host := h } = underHost h (exec i s) from exec_setHost i s h]
  cases exec i s <;> rfl

end Sys2Proof.Machine
end

section
/-! SUPPORT. Memory along a step (`20_memory.md` R51, R54, R64, R66): what a fetch reads, what a `wmem` leaves there, and which
steps change memory at all. -/

namespace Sys2Proof.Machine

/-! ### What the next step does, from the words at pc -/

/-- The words of a well-formed instruction at pc are fetched as that instruction (`30_encoding.md` R82). -/
theorem fetch_of_encode {s : State} {i : Instr} (hi : i.wf = true)
    (h : ∀ k w, (encode i)[k]? = some w → s.mem.read (s.pc + k) = some w) : fetch s = .ok i := by
  have hop : s.mem.read s.pc = some i.opcode := h 0 i.opcode rfl
  have hws : fetchWords s.mem (s.pc + 1) i.operands.length = some (i.operands.map Operand.toWord) := by
    rw [← List.length_map (f := Operand.toWord)]
    refine fetchWords_of_reads fun j w hj => ?_
    rw [Nat.add_assoc, Nat.add_comm 1 j]
    exact h (j + 1) w (by simpa [encode] using hj)
  have hargs : (i.operands.map Operand.toWord).map Operand.ofWord = i.operands := by
    rw [List.map_map]
    exact (List.map_congr_left fun a ha => Operand.ofWord_toWord (List.all_eq_true.1 hi a ha)).trans (List.map_id _)
  have hdec : decodeWords (i.opcode :: i.operands.map Operand.toWord) = .ok (i, []) :=
    decodeWords_of_ofOpcode (by rw [List.length_map, operandCount_opcode]) (by rw [hargs, Instr.ofOpcode_opcode])
  simp only [fetch, hop, operandCount_opcode, hws, hdec]

/-- A running, unsuspended core faults at a raw word above 21, which is no opcode (`30_encoding.md` R78). -/
theorem step_of_no_opcode {s : State} {op : Word} (hr : s.run = .running) (hs : s.susp = .none)
    (h : s.mem.read s.pc = some op) (hop : 21 < op.toNat) : step s = .next (s.raise .invalidOpcode (some op)) := by
  have hf : fetch s = .error (.invalidOpcode, some op) := by simp only [fetch, h, operandCount_of_gt hop]
  simp only [step, hr, hs, hf]

/-- A running, unsuspended core goes past the word 21 (`48_io_noop.md` R182). -/
theorem step_of_noop_word {s : State} (hr : s.run = .running) (hs : s.susp = .none) (h : s.mem.read s.pc = some 21) :
    step s = .next (s.advance 0) := by
  have hf : fetch s = .ok .noop := by
    refine fetch_of_encode rfl fun k w hk => ?_
    cases k with
    | zero => cases hk; exact h
    | succ k => cases hk
  exact step_of_fetch hr hs hf

/-! ### A store and the fetch after it -/

/-- A `wmem` whose operands resolve, to an address in memory, sets that cell (`46_memory_access.md` R161). -/
theorem exec_wmem_of_resolve {s : State} {a b : Operand} {addr v : Word} (ha : s.resolve a = .ok addr)
    (hb : s.resolve b = .ok v) (hlt : addr.toNat < s.mem.size) :
    exec (.wmem a b) s = .next ((s.setMem (s.mem.setCell addr.toNat v)).advance 2) := by
  have hw : s.writeMem addr.toNat v = .ok (s.setMem (s.mem.setCell addr.toNat v)) := State.writeMem_eq_ok.2 ⟨hlt, rfl⟩
  simp only [exec, execWmem, ha, hb, hw, bind, Except.bind, pure, Except.pure, State.finish]

/-- Settles O25: the cell at the new pc reads as the word just stored, and the next fetch reads that cell. -/
theorem storeIsSeenByTheNextFetch : Obligations.StoreIsSeenByTheNextFetch := by
  intro s a b addr v hs hr hn hf ha hb hpc hlt
  have hcell : (s.mem.setCell addr.toNat v).read (s.pc + 3) = some v :=
    hpc ▸ Memory.read_setCell_same hs.mem_wf v hlt
  refine ⟨(s.setMem (s.mem.setCell addr.toNat v)).advance 2, ?_, rfl, fun hv => ?_, fun hv => ?_⟩
  · rw [step_of_fetch hr hn hf, exec_wmem_of_resolve ha hb hlt]
  · exact step_of_no_opcode hr hn hcell hv
  · obtain rfl : v = 21 := BitVec.eq_of_toNat_eq hv
    exact step_of_noop_word hr hn hcell

/-! ### Which steps change memory -/

/-- Settles O41: of the instructions only `wmem` changes memory, and it keeps N; of the commands only `load`. -/
theorem memoryChangesOnlyByWmemOrLoad : Obligations.MemoryChangesOnlyByWmemOrLoad := by
  intro s t h
  have same (hm : t.mem = s.mem) : t.mem.size = s.mem.size ∧ SameMemory s t := ⟨congrArg _ hm, .of_eq hm⟩
  obtain ⟨hr, ⟨hn, i, hf, he⟩ | ⟨-, k, rfl⟩ | ⟨hd, line, rest, hl, rfl⟩⟩ := step_cases h
  · by_cases hi : ∃ a b, i = .wmem a b
    · obtain ⟨a, b, rfl⟩ := hi
      exact .inr (.inl ⟨hn, he.mem_size_eq, a, b, hf⟩)
    · exact .inl (same (he.mem_eq fun a b e => hi ⟨a, b, e⟩))
  · exact .inl (same (s.raise_mem k _))
  · obtain ⟨name, x, hc, -⟩ | ⟨j, v, hj, -, -, e⟩ | ⟨x, e⟩ := runCommand_cases (parseCommand line) (s.setInput rest)
    · exact .inr (.inr ⟨line, rest, name, ⟨hr, hd, hl⟩, hc⟩)
    · exact .inl (same (by rw [e, State.setSusp_mem, State.setReg_mem, State.setInput_mem]))
    · exact .inl (same (by rw [e, State.setSusp_mem, State.setHost_mem, State.setInput_mem]))

end Sys2Proof.Machine
end

section
/-! SUPPORT. The encoding (`30_encoding.md` R73 to R87): an instruction is its opcode with its operands, what a list of words
decodes to, and the fetch's faults. -/

namespace Sys2Proof

/-! ### Instructions and their words -/

/-- The opcode and the operands determine the instruction (R77). -/
theorem Instr.eq_of_opcode_of_operands {i j : Instr} (ho : i.opcode = j.opcode) (ha : i.operands = j.operands) : i = j := by
  have hi := Instr.ofOpcode_opcode i
  rw [ho, ha, Instr.ofOpcode_opcode] at hi
  exact (Option.some.inj hi).symm

/-- The operands of a well-formed instruction are read back from their words (R73, R87). -/
theorem Instr.map_ofWord_map_toWord {i : Instr} (hi : i.wf = true) :
    (i.operands.map Operand.toWord).map Operand.ofWord = i.operands := by
  rw [List.map_map]
  have hid : ∀ a ∈ i.operands, (Operand.ofWord ∘ Operand.toWord) a = id a := fun a ha =>
    Operand.ofWord_toWord (List.all_eq_true.1 hi a ha)
  rw [List.map_congr_left hid, List.map_id]

/-- Operands read from words have those words (R73, R87). -/
theorem map_toWord_map_ofWord (ws : List Word) : (ws.map Operand.ofWord).map Operand.toWord = ws := by
  simp [Function.comp_def]

/-- An instruction whose operands were read from words is well formed (R73). -/
theorem Instr.wf_of_operands_eq {i : Instr} {ws : List Word} (h : i.operands = ws.map Operand.ofWord) : i.wf = true := by
  simp [Instr.wf, h]

/-- An opcode word followed by at least its operand words decodes to the instruction of that opcode and those operands
(R77, R78). -/
theorem decodeWords_of_operandCount {op : Word} {k : Nat} {ws : List Word} (hk : operandCount op.toNat = some k)
    (hl : k ≤ ws.length) :
    ∃ i, decodeWords (op :: ws) = .ok (i, ws.drop k) ∧ i.opcode = op ∧ i.operands = (ws.take k).map Operand.ofWord := by
  obtain ⟨i, hi⟩ := Instr.ofOpcode_isSome hk ((ws.take k).map Operand.ofWord) (by simp [hl])
  obtain ⟨hop, hargs⟩ := Instr.ofOpcode_eq_some hi
  exact ⟨i, by simp only [decodeWords, hk, hi, if_neg hl.not_gt], BitVec.eq_of_toNat_eq hop, hargs⟩

end Sys2Proof

namespace Sys2Proof.Machine

/-! ### The decoder and the encoder -/

/-- Settles O1: decoding gives an instruction with the same opcode and, read back from their words, the same operands. -/
theorem decodeInvertsEncode : Obligations.DecodeInvertsEncode := by
  intro i rest hi
  have hlen : i.operands.length = (i.operands.map Operand.toWord).length := by simp
  obtain ⟨j, hd, hop, hargs⟩ := decodeWords_of_operandCount (ws := i.operands.map Operand.toWord ++ rest)
    (operandCount_opcode i) (by simp)
  rw [hlen, List.take_left, Instr.map_ofWord_map_toWord hi] at hargs
  rw [hlen, List.drop_left, Instr.eq_of_opcode_of_operands hop hargs] at hd
  exact hd

/-- Settles O2: the operands of what decodes are the classes of the words after the opcode. -/
theorem encodeInvertsDecode : Obligations.EncodeInvertsDecode := by
  intro ws rest i h
  obtain ⟨args, hws, hargs⟩ := decodeWords_ok h
  exact ⟨by rw [hws, encode, hargs, map_toWord_map_ofWord], Instr.wf_of_operands_eq hargs⟩

/-- Settles O3: each list is evaluated. -/
theorem knownWordsDecode : Obligations.KnownWordsDecode := by
  unfold Obligations.KnownWordsDecode
  decide

/-- Settles O4: an opcode word with its operand words decodes, and a word above 21 is a fault of the fetch. -/
theorem opcodeIsTheRawWord : Obligations.OpcodeIsTheRawWord :=
  ⟨fun _ _ _ _ hk hl => decodeWords_of_operandCount hk hl, fun _ _ hr hs h hop => step_of_no_opcode hr hs h hop⟩

/-! ### The operand resolver -/

/-- A literal word resolves to itself (`30_encoding.md` R74). -/
theorem State.resolve_ofWord_lit (s : State) {w : Word} (h : w.toNat ≤ 32767) : s.resolve (.ofWord w) = .ok w := by
  have hw := Operand.toWord_ofWord w
  rw [Operand.ofWord_lit h] at hw ⊢
  exact congrArg Except.ok hw

/-- Settles O5: the word's class decides both modes. -/
theorem operandResolver : Obligations.OperandResolver := by
  refine fun s w => ⟨fun h => ⟨s.resolve_ofWord_lit h, ?_⟩, fun r h => ?_, fun h => ?_⟩
  · rw [Operand.ofWord_lit h]; rfl
  · rw [Operand.ofWord_reg r h]; exact ⟨rfl, rfl⟩
  · rw [Operand.ofWord_invalid h]; exact ⟨rfl, rfl⟩

/-! ### The fetch -/

/-- A pc at or above N is a fault of the opcode fetch (`30_encoding.md` R83, item 1). -/
theorem fetch_of_size_le {s : State} (h : s.mem.size ≤ s.pc) : fetch s = .error (.outOfBounds, none) := by
  simp only [fetch, Memory.read_eq_none.2 h]

/-- An opcode whose last operand word is not below N is a fault of the operand fetch (R83, item 3). -/
theorem fetch_of_cut_short {s : State} {op : Word} {k : Nat} (hop : s.mem.read s.pc = some op)
    (hk : operandCount op.toNat = some k) (h : s.mem.size ≤ s.pc + k) : fetch s = .error (.outOfBounds, some op) := by
  have hpc := Memory.lt_size_of_read hop
  have hws : fetchWords s.mem (s.pc + 1) k = none := fetchWords_eq_none.2 ⟨by omega, by omega⟩
  simp only [fetch, hop, hk, hws]

/-- A running, unsuspended core takes the fault of its fetch (R82). -/
theorem step_of_fetch_error {s : State} {k : FaultKind} {op : Option Word} (hr : s.run = .running) (hs : s.susp = .none)
    (h : fetch s = .error (k, op)) : step s = .next (s.raise k op) := by
  simp only [step, hr, hs, h]

/-- Settles O7: each condition is a fault of the fetch, which the step takes. -/
theorem fetchFaults : Obligations.FetchFaults := fun _ hr hs =>
  ⟨fun h => step_of_fetch_error hr hs (fetch_of_size_le h), fun _ hop h => step_of_no_opcode hr hs hop h,
    fun _ _ hop hk h => step_of_fetch_error hr hs (fetch_of_cut_short hop hk h)⟩

/-- Settles O6: the words at pc are fetched as the instruction. -/
theorem stepRunsTheDecodedInstruction : Obligations.StepRunsTheDecodedInstruction :=
  fun _ _ hr hs hi h => step_of_fetch hr hs (fetch_of_encode hi h)

end Sys2Proof.Machine
end

section
/-! SUPPORT. `halt`, `set`, `push`, `pop` (`41_halt_set_stack.md`): what each gives for operands that resolve, and the fault for
those that do not. -/

namespace Sys2Proof.Machine

/-! ### The operands and the shared handlers -/

/-- What is no register reference is no destination (`30_encoding.md` R75). -/
theorem destination_of_ne_reg {a : Operand} (h : ∀ d, a ≠ .reg d) : destination a = .error .invalidDestination := by
  cases a with
  | reg d => exact absurd rfl (h d)
  | lit n | invalid w => rfl

/-- An instruction whose handler is `writeUnary`, with a result that raises nothing, meets the rule of `op a, b`: the
destination is looked at before the value (R83, items 4 to 6). -/
theorem unaryRule_of_writeUnary {mk : Operand → Operand → Instr} {op : Word} {f : Word → Word}
    (henc : ∀ a b, encode (mk a b) = [op, a.toWord, b.toWord])
    (hexec : ∀ a b s, exec (mk a b) s = s.finish op (s.writeUnary a b fun vb => .ok (f vb))) : UnaryRule mk op f := by
  refine fun a b s => ⟨henc a b, fun d vb ha hb => ?_, fun ha => ?_, fun d w ha hb => ?_⟩ <;> rw [hexec]
  · exact State.finish_eq_next.2 (.inl (State.writeUnary_eq_ok.2 ⟨d, vb, f vb, ha, hb, rfl, rfl⟩))
  · rw [State.writeUnary, destination_of_ne_reg ha]; rfl
  · rw [ha, hb]; rfl

/-! ### The meanings -/

/-- `push` with a value and room for it (R102). -/
theorem exec_push_of_room {s : State} {a : Operand} {v : Word} (ha : s.resolve a = .ok v) (h : s.stackFull = false) :
    exec (.push a) s = .next ((s.setStack (s.stack ++ [v])).advance 1) := by
  have hp : s.push v = .ok (s.setStack (s.stack ++ [v])) := State.push_eq_ok.2 ⟨h, rfl⟩
  simp only [exec, execPush, ha, hp, bind, Except.bind, pure, Except.pure, State.finish]

/-- `push` with a value and a full stack (R102, `60_exceptions.md` R200). -/
theorem exec_push_of_full {s : State} {a : Operand} {v : Word} (ha : s.resolve a = .ok v) (h : s.stackFull = true) :
    exec (.push a) s = .next (s.raise .stackOverflow (some 2)) := by
  simp only [exec, execPush, ha, State.push_full v h, bind, Except.bind, State.finish]

/-- `pop` into a register, of a stack with a top (R103). -/
theorem exec_pop_of_stack {s : State} (d : Fin 8) {v : Word} {st : List Word} (h : s.stack = st ++ [v]) :
    exec (.pop (.reg d)) s = .next (((s.setStack st).setReg d v).advance 1) := by
  have hp : s.popTop = some (v, s.setStack st) := State.popTop_eq_some.2 ⟨st, h, rfl⟩
  simp only [exec, execPop, destination, hp, bind, Except.bind, pure, Except.pure, State.finish]

/-- `pop` into a register, of an empty stack (R103). -/
theorem exec_pop_of_empty {s : State} (d : Fin 8) (h : s.stack = []) :
    exec (.pop (.reg d)) s = .next (s.raise .stackUnderflow (some 3)) := by
  simp only [exec, execPop, destination, State.popTop_eq_none.2 h, bind, Except.bind, State.finish]

/-- `pop` with no destination, whatever the stack (R103). -/
theorem exec_pop_of_ne_reg {s : State} {a : Operand} (h : ∀ d, a ≠ .reg d) :
    exec (.pop a) s = .next (s.raise .invalidDestination (some 3)) := by
  simp only [exec, execPop, destination_of_ne_reg h, bind, Except.bind, State.finish]

/-! ### The statements -/

/-- Settles O12: `halt` is `State.stop`, and a halted core has no step. -/
theorem haltStopsTheCore : Obligations.HaltStopsTheCore := ⟨rfl, fun _ => ⟨rfl, rfl⟩⟩

/-- Settles O13: `set` is the unary writer of the value itself. -/
theorem setCopiesTheValue : Obligations.SetCopiesTheValue :=
  unaryRule_of_writeUnary (fun _ _ => rfl) (fun _ _ _ => rfl)

/-- Settles O14: the clauses part on whether the operand resolves, and then on whether the stack is full. -/
theorem pushPutsTheValueOnTop : Obligations.PushPutsTheValueOnTop := by
  refine fun a s => ⟨rfl, fun v ha hroom => ?_, ?_, fun v limit ha hl hlen => ?_⟩
  · exact exec_push_of_room ha (State.stackFull_eq_false.2 hroom)
  · rintro w rfl
    rfl
  · exact exec_push_of_full ha (State.stackFull_iff.2 ⟨limit, hl, hlen.ge⟩)

/-- Settles O15: the clauses part on whether the operand is a register, and then on whether the stack is empty. -/
theorem popTakesTheTop : Obligations.PopTakesTheTop := by
  refine fun a s => ⟨rfl, ?_, exec_pop_of_ne_reg, ?_⟩
  · rintro d v st rfl hs
    exact exec_pop_of_stack d hs
  · rintro d rfl hs
    exact exec_pop_of_empty d hs

end Sys2Proof.Machine
end

section
/-! SUPPORT. `eq` and `gt` (`42_compare.md`): the operand faults of the shared handler `writeBinary`, the rule it meets with a
result that raises nothing, and the words that `eq` and `gt` write. -/

namespace Sys2Proof.Machine

/-! ### The faults of the shared handler, whatever the result (`30_encoding.md` R83, items 4 to 6) -/

/-- The destination is looked at before the values. -/
theorem State.writeBinary_of_ne_reg {s : State} {a : Operand} (ha : ∀ d, a ≠ .reg d) (b c : Operand)
    (f : Word → Word → Except FaultKind Word) : s.writeBinary a b c f = .error .invalidDestination := by
  rw [State.writeBinary, destination_of_ne_reg ha]
  rfl

/-- The first value is looked at before the second. -/
theorem State.writeBinary_of_invalid_left (s : State) (d : Fin 8) (w : Word) (c : Operand)
    (f : Word → Word → Except FaultKind Word) :
    s.writeBinary (.reg d) (.invalid w) c f = .error .invalidOperand := rfl

/-- The second value is looked at once the first is resolved, and before the result is. -/
theorem State.writeBinary_of_invalid_right {s : State} {b : Operand} {vb : Word} (hb : s.resolve b = .ok vb) (d : Fin 8)
    (w : Word) (f : Word → Word → Except FaultKind Word) :
    s.writeBinary (.reg d) b (.invalid w) f = .error .invalidOperand := by
  rw [State.writeBinary, hb]
  rfl

/-- An instruction whose handler is `writeBinary`, with a result that raises nothing, meets the rule of `op a, b, c`. -/
theorem binaryRule_of_writeBinary {mk : Operand → Operand → Operand → Instr} {op : Word} {f : Word → Word → Word}
    (henc : ∀ a b c, encode (mk a b c) = [op, a.toWord, b.toWord, c.toWord])
    (hexec : ∀ a b c s, exec (mk a b c) s = s.finish op (s.writeBinary a b c fun vb vc => .ok (f vb vc))) :
    BinaryRule mk op f := by
  refine fun a b c s => ⟨henc a b c, fun d vb vc ha hb hc => ?_, fun ha => ?_, ?_, ?_⟩ <;> rw [hexec]
  · exact State.finish_eq_next.2 (.inl (State.writeBinary_eq_ok.2 ⟨d, vb, vc, f vb vc, ha, hb, hc, rfl, rfl⟩))
  · rw [State.writeBinary_of_ne_reg ha]
    rfl
  · rintro d w rfl rfl
    rw [State.writeBinary_of_invalid_left]
    rfl
  · rintro d vb w rfl hb rfl
    rw [State.writeBinary_of_invalid_right hb]
    rfl

/-! ### The words that `eq` and `gt` write -/

/-- The result of `eq` (R120). -/
theorem eqWord_eq_ite (vb vc : Word) : eqWord vb vc = if vb.toNat = vc.toNat then 1 else 0 := by
  simp only [eqWord, truthWord, beq_iff_eq]

/-- The result of `gt` (R121). -/
theorem gtWord_eq_ite (vb vc : Word) : gtWord vb vc = if vb.toNat > vc.toNat then 1 else 0 := by
  simp only [gtWord, truthWord, decide_eq_true_eq, gt_iff_lt]

/-! ### The statement -/

/-- Settles O16: `eq` and `gt` are binary writers of the words `eqWord` and `gtWord`. -/
theorem compareWritesZeroOrOne : Obligations.CompareWritesZeroOrOne := by
  simp only [Obligations.CompareWritesZeroOrOne, ← eqWord_eq_ite, ← gtWord_eq_ite]
  exact ⟨binaryRule_of_writeBinary (fun _ _ _ => rfl) (fun _ _ _ _ => rfl),
    binaryRule_of_writeBinary (fun _ _ _ => rfl) (fun _ _ _ _ => rfl)⟩

end Sys2Proof.Machine
end

section
/-! SUPPORT. `jmp`, `jt`, `jf` (`43_jump.md`): a jump to a target that resolves, the operand faults of the shared handler
`jumpIf`, and the rule that a jump on a condition meets. -/

namespace Sys2Proof.Machine

/-! ### The shared handler of a jump on a condition -/

/-- The condition's operand is looked at first, so its fault is taken whatever the target (R131, R132). -/
theorem State.jumpIf_of_invalid_condition (s : State) (p : Word → Bool) (w : Word) (b : Operand) :
    s.jumpIf p (.invalid w) b = .error .invalidOperand := rfl

/-- A taken jump looks at its target (R131, R132, `92_eei_decisions.md` D9). -/
theorem State.jumpIf_of_invalid_target {s : State} {p : Word → Bool} {a : Operand} {v : Word} (ha : s.resolve a = .ok v)
    (hp : p v = true) (w : Word) : s.jumpIf p a (.invalid w) = .error .invalidOperand := by
  simp only [State.jumpIf, ha, hp, bind, Except.bind, ↓reduceIte]
  rfl

/-- An instruction whose handler is `jumpIf` meets the rule of a jump on the condition that its test decides. -/
theorem jumpRule_of_jumpIf {mk : Operand → Operand → Instr} {op : Word} {p : Word → Bool} {taken : Word → Prop}
    (henc : ∀ a b, encode (mk a b) = [op, a.toWord, b.toWord])
    (hexec : ∀ a b s, exec (mk a b) s = s.finish op (s.jumpIf p a b)) (hp : ∀ v, p v = true ↔ taken v) :
    JumpRule mk op taken := by
  refine fun a b s => ⟨henc a b, fun v t ha hv hb => ?_, fun v ha hv => ?_, ?_, ?_⟩ <;> rw [hexec]
  · exact State.finish_eq_next.2 (.inl (State.jumpIf_eq_ok.2 ⟨v, ha, .inl ⟨(hp v).2 hv, t, hb, rfl⟩⟩))
  · have hpv : p v = false := Bool.eq_false_iff.2 (mt (hp v).1 hv)
    exact State.finish_eq_next.2 (.inl (State.jumpIf_eq_ok.2 ⟨v, ha, .inr ⟨hpv, rfl⟩⟩))
  · rintro w rfl
    rw [State.jumpIf_of_invalid_condition]
    rfl
  · rintro v w ha hv rfl
    rw [State.jumpIf_of_invalid_target ha ((hp v).2 hv)]
    rfl

/-! ### The meanings -/

/-- `jmp` to a target that resolves (R130). -/
theorem exec_jmp_of_resolve {s : State} {a : Operand} {t : Word} (ha : s.resolve a = .ok t) :
    exec (.jmp a) s = .next (s.setPc t.toNat) := by
  simp only [exec, execJmp, ha, bind, Except.bind, pure, Except.pure, State.finish]

/-- `jt` jumps on a condition that is not 0 (R131). -/
theorem condTrue_iff (v : Word) : condTrue v = true ↔ v.toNat ≠ 0 := bne_iff_ne

/-- `jf` jumps on the condition 0 (R132). -/
theorem condFalse_iff (v : Word) : condFalse v = true ↔ v.toNat = 0 := beq_iff_eq

/-! ### The statements -/

/-- Settles O21: the clauses part on whether the target resolves. -/
theorem jmpGoesToTheTarget : Obligations.JmpGoesToTheTarget := by
  refine fun a s => ⟨rfl, fun t ha => exec_jmp_of_resolve ha, ?_⟩
  rintro w rfl
  rfl

/-- Settles O22: `jt` and `jf` are jumps on the tests `condTrue` and `condFalse`. -/
theorem conditionalJumps : Obligations.ConditionalJumps :=
  ⟨jumpRule_of_jumpIf (fun _ _ => rfl) (fun _ _ _ => rfl) condTrue_iff,
    jumpRule_of_jumpIf (fun _ _ => rfl) (fun _ _ _ => rfl) condFalse_iff⟩

end Sys2Proof.Machine
end

section
/-! SUPPORT. `add`, `mult`, `mod` (`44_arithmetic.md`): the fault of a result in the shared handler `writeBinary`, and when
`mod`'s result is one. -/

namespace Sys2Proof.Machine

/-! ### The fault of the result, once all operands are resolved (`30_encoding.md` R83) -/

/-- The handler of `op a, b, c` raises what its result raises on the two resolved values. -/
theorem State.writeBinary_of_result_error {s : State} {b c : Operand} {vb vc : Word} {f : Word → Word → Except FaultKind Word}
    {k : FaultKind} (d : Fin 8) (hb : s.resolve b = .ok vb) (hc : s.resolve c = .ok vc) (hf : f vb vc = .error k) :
    s.writeBinary (.reg d) b c f = .error k := by
  simp only [State.writeBinary, destination, hb, hc, hf, bind, Except.bind]

/-! ### The result of `mod` -/

/-- A divisor that is not 0 has a remainder (R142). -/
theorem modWord_of_ne_zero (vb : Word) {vc : Word} (h : vc.toNat ≠ 0) :
    ∃ v, modWord vb vc = .ok v ∧ v.toNat = vb.toNat % vc.toNat := by
  have hv : modWord vb vc = .ok (BitVec.ofNat 16 (vb.toNat % vc.toNat)) := if_neg h
  exact ⟨_, hv, (modWord_eq_ok hv).2⟩

/-- A divisor of 0 is a fault (R142). -/
theorem modWord_of_zero (vb : Word) {vc : Word} (h : vc.toNat = 0) : modWord vb vc = .error .divisionByZero := if_pos h

/-- `mod` is the binary writer of `modWord`. -/
theorem exec_mod (a b c : Operand) (s : State) : exec (.mod a b c) s = s.finish 11 (s.writeBinary a b c modWord) := rfl

/-! ### The statements -/

/-- Settles O17: `add` and `mult` are binary writers of the words `addWord` and `multWord`. -/
theorem addAndMultModulo32768 : Obligations.AddAndMultModulo32768 := by
  have hadd : BinaryRule .add 9 addWord := binaryRule_of_writeBinary (fun _ _ _ => rfl) (fun _ _ _ _ => rfl)
  have hmult : BinaryRule .mult 10 multWord := binaryRule_of_writeBinary (fun _ _ _ => rfl) (fun _ _ _ _ => rfl)
  exact ⟨hadd, hmult⟩

/-- Settles O18: the clauses part on the first operand that does not resolve, and then on whether the divisor is 0. -/
theorem modIsTheNaturalRemainder : Obligations.ModIsTheNaturalRemainder := by
  refine fun a b c s => ⟨rfl, fun d vb vc ha hb hc h0 => ?_, ?_, fun ha => ?_, ?_, ?_⟩
  · obtain ⟨v, hv, hval⟩ := modWord_of_ne_zero vb h0
    exact ⟨v, hval, State.finish_eq_next.2 (.inl (State.writeBinary_eq_ok.2 ⟨d, vb, vc, v, ha, hb, hc, hv, rfl⟩))⟩
  · rintro d vb vc rfl hb hc h0
    rw [exec_mod, State.writeBinary_of_result_error d hb hc (modWord_of_zero vb h0)]
    rfl
  · rw [exec_mod, State.writeBinary_of_ne_reg ha]
    rfl
  · rintro d w rfl rfl
    rw [exec_mod, State.writeBinary_of_invalid_left]
    rfl
  · rintro d vb w rfl hb rfl
    rw [exec_mod, State.writeBinary_of_invalid_right hb]
    rfl

end Sys2Proof.Machine
end

section
/-! SUPPORT. `and`, `or`, `not` (`45_logic.md`): the masked word each writes is the word of its natural-number result. -/

namespace Sys2Proof.Machine

/-! ### The words that `and`, `or` and `not` write -/

/-- The value of a 15-bit AND (R150). -/
theorem andWord_toNat (vb vc : Word) : (andWord vb vc).toNat = (vb.toNat &&& vc.toNat) % 32768 := by
  rw [andWord, mask15_toNat, BitVec.toNat_and]

/-- The value of a 15-bit OR (R151). -/
theorem orWord_toNat (vb vc : Word) : (orWord vb vc).toNat = (vb.toNat ||| vc.toNat) % 32768 := by
  rw [orWord, mask15_toNat, BitVec.toNat_or]

/-- The result of `and` (R150). -/
theorem andWord_eq_ofNat (vb vc : Word) : andWord vb vc = BitVec.ofNat 16 ((vb.toNat &&& vc.toNat) % 32768) := by
  rw [← andWord_toNat, BitVec.ofNat_toNat, BitVec.setWidth_eq]

/-- The result of `or` (R151). -/
theorem orWord_eq_ofNat (vb vc : Word) : orWord vb vc = BitVec.ofNat 16 ((vb.toNat ||| vc.toNat) % 32768) := by
  rw [← orWord_toNat, BitVec.ofNat_toNat, BitVec.setWidth_eq]

/-- The result of `not` (R152). -/
theorem notWord_eq_ofNat (vb : Word) : notWord vb = BitVec.ofNat 16 (32767 - vb.toNat % 32768) := by
  rw [← notWord_toNat, BitVec.ofNat_toNat, BitVec.setWidth_eq]

/-! ### The statement -/

/-- Settles O19: `and` and `or` are binary writers of the words `andWord` and `orWord`, `not` the unary writer of `notWord`. -/
theorem logicIsMaskedTo15Bits : Obligations.LogicIsMaskedTo15Bits := by
  simp only [Obligations.LogicIsMaskedTo15Bits, ← andWord_eq_ofNat, ← orWord_eq_ofNat, ← notWord_eq_ofNat]
  exact ⟨binaryRule_of_writeBinary (fun _ _ _ => rfl) (fun _ _ _ _ => rfl),
    binaryRule_of_writeBinary (fun _ _ _ => rfl) (fun _ _ _ _ => rfl),
    unaryRule_of_writeUnary (fun _ _ => rfl) (fun _ _ _ => rfl)⟩

end Sys2Proof.Machine
end

section
/-! SUPPORT. `rmem`, `wmem` (`46_memory_access.md`): an access outside memory, the faults of the shared handler `writeUnary`,
and the operand and address faults of both instructions. -/

namespace Sys2Proof.Machine

/-! ### An access outside memory, and a word that `rmem` refuses -/

/-- A read from N on is a fault (`20_memory.md` R53). -/
theorem State.readMem_of_size_le {s : State} {a : Nat} (h : s.mem.size ≤ a) : s.readMem a = .error .outOfBounds := by
  rw [State.readMem, Memory.read_eq_none.2 h]

/-- A write from N on is a fault (`20_memory.md` R54). -/
theorem State.writeMem_of_size_le {s : State} {a : Nat} (v : Word) (h : s.mem.size ≤ a) :
    s.writeMem a v = .error .outOfBounds := by
  rw [State.writeMem, Memory.write_eq_none.2 h]

/-- There is no word to load from N on (R160). -/
theorem loadWord_of_size_le {s : State} {addr : Word} (h : s.mem.size ≤ addr.toNat) :
    loadWord s addr = .error .outOfBounds := by
  rw [loadWord, State.readMem_of_size_le h]
  rfl

/-- A cell that holds no Word is not loaded (R160, `92_eei_decisions.md` D5). -/
theorem loadWord_of_not_isWord {s : State} {addr m : Word} (h : s.mem.read addr.toNat = some m) (hm : 32775 < m.toNat) :
    loadWord s addr = .error .invalidOperand := by
  rw [loadWord, State.readMem_eq_ok.2 h]
  exact if_pos hm

/-! ### The faults of the shared handler, whatever the result (`30_encoding.md` R83, items 4 to 6) -/

/-- The destination is looked at before the value. -/
theorem State.writeUnary_of_ne_reg {s : State} {a : Operand} (ha : ∀ d, a ≠ .reg d) (b : Operand)
    (f : Word → Except FaultKind Word) : s.writeUnary a b f = .error .invalidDestination := by
  rw [State.writeUnary, destination_of_ne_reg ha]
  rfl

/-- The value is looked at before the result. -/
theorem State.writeUnary_of_invalid (s : State) (d : Fin 8) (w : Word) (f : Word → Except FaultKind Word) :
    s.writeUnary (.reg d) (.invalid w) f = .error .invalidOperand := rfl

/-- The handler of `op a, b` raises what its result raises on the resolved value. -/
theorem State.writeUnary_of_result_error {s : State} {b : Operand} {vb : Word} {f : Word → Except FaultKind Word}
    {k : FaultKind} (d : Fin 8) (hb : s.resolve b = .ok vb) (hf : f vb = .error k) :
    s.writeUnary (.reg d) b f = .error k := by
  simp only [State.writeUnary, destination, hb, hf, bind, Except.bind]

/-! ### The meanings -/

/-- `rmem` is the unary writer of `loadWord`. -/
theorem exec_rmem (a b : Operand) (s : State) : exec (.rmem a b) s = s.finish 15 (s.writeUnary a b (loadWord s)) := rfl

/-- `wmem` with a value that does not resolve (R161): the address is looked at first. -/
theorem exec_wmem_of_invalid_value {s : State} {a : Operand} {addr : Word} (ha : s.resolve a = .ok addr) (w : Word) :
    exec (.wmem a (.invalid w)) s = .next (s.raise .invalidOperand (some 16)) := by
  have hb : s.resolve (.invalid w) = .error .invalidOperand := rfl
  simp only [exec, execWmem, ha, hb, bind, Except.bind, State.finish]

/-- `wmem` to an address from N on (R161): both operands resolve first. -/
theorem exec_wmem_of_size_le {s : State} {a b : Operand} {addr v : Word} (ha : s.resolve a = .ok addr)
    (hb : s.resolve b = .ok v) (h : s.mem.size ≤ addr.toNat) :
    exec (.wmem a b) s = .next (s.raise .outOfBounds (some 16)) := by
  simp only [exec, execWmem, ha, hb, State.writeMem_of_size_le v h, bind, Except.bind, State.finish]

/-! ### The statements -/

/-- Settles O24: the clauses part on the first operand that does not resolve, and then on the address; a store in memory is
`Memory.setCell`. -/
theorem wmemStoresTheValue : Obligations.WmemStoresTheValue := by
  refine fun a b s => ⟨rfl, fun addr v hwf ha hb hlt => ?_, ?_, ?_, fun addr v => exec_wmem_of_size_le⟩
  · exact ⟨s.mem.setCell addr.toNat v, exec_wmem_of_resolve ha hb hlt, Memory.setCell_size _ _ _,
      Memory.read_setCell_same hwf v hlt, fun k => Memory.read_setCell_other s.mem v⟩
  · rintro w rfl
    rfl
  · rintro addr w ha rfl
    exact exec_wmem_of_invalid_value ha w

/-- Settles O23: the clauses part on the first operand that does not resolve, and then on what `loadWord` brings. -/
theorem rmemCopiesTheRawWord : Obligations.RmemCopiesTheRawWord := by
  refine fun a b s => ⟨rfl, fun d addr m ha hb hm hw => ?_, fun ha => ?_, ?_, ?_, ?_⟩
  · have hload : loadWord s addr = .ok m := loadWord_eq_ok.2 ⟨hm, hw⟩
    exact State.finish_eq_next.2 (.inl (State.writeUnary_eq_ok.2 ⟨d, addr, m, ha, hb, hload, rfl⟩))
  · rw [exec_rmem, State.writeUnary_of_ne_reg ha]
    rfl
  · rintro d w rfl rfl
    rw [exec_rmem, State.writeUnary_of_invalid]
    rfl
  · rintro d addr rfl hb h
    rw [exec_rmem, State.writeUnary_of_result_error d hb (loadWord_of_size_le h)]
    rfl
  · rintro d addr m rfl hb hm hw
    rw [exec_rmem, State.writeUnary_of_result_error d hb (loadWord_of_not_isWord hm hw)]
    rfl

end Sys2Proof.Machine
end

section
/-! SUPPORT. `call`, `ret` (`47_call_return.md`): what each gives for a target that resolves and for a stack with or without a
top, and the one way a `call` leaves the core running. -/

namespace Sys2Proof.Machine

/-! ### The meanings -/

/-- `call` with a target and room for the return address (R170): the target is resolved in the state before the push. -/
theorem exec_call_of_room {s : State} {a : Operand} {t : Word} (ha : s.resolve a = .ok t) (h : s.stackFull = false) :
    exec (.call a) s = .next ((s.setStack (s.stack ++ [BitVec.ofNat 16 (s.pc + 2)])).setPc t.toNat) := by
  have hp : s.push (BitVec.ofNat 16 (s.next 1)) = .ok (s.setStack (s.stack ++ [BitVec.ofNat 16 (s.pc + 2)])) :=
    State.push_eq_ok.2 ⟨h, rfl⟩
  simp only [exec, execCall, ha, hp, bind, Except.bind, pure, Except.pure, State.finish]

/-- `call` with a target and a full stack (R170, `60_exceptions.md` R200). -/
theorem exec_call_of_full {s : State} {a : Operand} {t : Word} (ha : s.resolve a = .ok t) (h : s.stackFull = true) :
    exec (.call a) s = .next (s.raise .stackOverflow (some 17)) := by
  simp only [exec, execCall, ha, State.push_full _ h, bind, Except.bind, State.finish]

/-- `ret` on a stack with a top (R171). -/
theorem exec_ret_of_stack {s : State} {t : Word} {st : List Word} (h : s.stack = st ++ [t]) :
    exec .ret s = .next ((s.setStack st).setPc t.toNat) := by
  have hp : s.popTop = some (t, s.setStack st) := State.popTop_eq_some.2 ⟨st, h, rfl⟩
  simp only [exec, execRet, hp]

/-- `ret` on an empty stack (R171). -/
theorem exec_ret_of_empty {s : State} (h : s.stack = []) : exec .ret s = .next s.stop := by
  simp only [exec, execRet, State.popTop_eq_none.2 h]

/-! ### The return address -/

/-- The return address fits in a word while the `call` lies in memory (`20_memory.md` R50). -/
theorem toNat_return_address {s : State} (hpc : s.pc + 1 < s.mem.size) (hsize : s.mem.size ≤ 32768) :
    (BitVec.ofNat 16 (s.pc + 2)).toNat = s.pc + 2 := by
  rw [BitVec.toNat_ofNat]
  omega

/-- A `call` that leaves the core running has not faulted, so it put its return address on top (R170). -/
theorem stack_of_exec_call {a : Operand} {s t : State} (h : exec (.call a) s = .next t) (ht : t.run = .running) :
    t.stack = s.stack ++ [BitVec.ofNat 16 (s.pc + 2)] := by
  cases exec_effect h with
  | called => rfl
  | raised => cases ht
  | wrote _ _ _ hi => cases hi
  | stopped hi | jumped _ _ hi | passed _ hi => simp at hi
  | popped _ _ _ hi | pushed _ _ hi | returned _ _ hi | stored _ _ _ _ hi | sent _ _ hi | took _ _ _ hi | suspended _ _ hi =>
    cases hi

/-! ### The statements -/

/-- Settles O26: the clauses part on whether the target resolves, and then on whether the stack is full. -/
theorem callPushesTheReturnAddress : Obligations.CallPushesTheReturnAddress := by
  refine fun a s => ⟨rfl, fun t hpc hsize ha hroom => ?_, ?_, fun t limit ha hl hlen => ?_⟩
  · exact ⟨_, toNat_return_address hpc hsize, exec_call_of_room ha (State.stackFull_eq_false.2 hroom)⟩
  · rintro w rfl
    rfl
  · exact exec_call_of_full ha (State.stackFull_iff.2 ⟨limit, hl, hlen.ge⟩)

/-- Settles O27: the clauses part on whether the stack is empty. -/
theorem retGoesToTheTopOrHalts : Obligations.RetGoesToTheTopOrHalts :=
  ⟨rfl, fun _ => ⟨fun _ _ => exec_ret_of_stack, exec_ret_of_empty⟩⟩

/-- Settles O28: the top that the `ret` meets is the return address of the `call`, over the stack before the `call`. -/
theorem matchedCallAndReturn : Obligations.MatchedCallAndReturn := by
  intro a s t u _ hpc hsize hcall hrun hu
  have hstack : u.stack = s.stack ++ [BitVec.ofNat 16 (s.pc + 2)] := hu.trans (stack_of_exec_call hcall hrun)
  exact ⟨_, exec_ret_of_stack hstack, toNat_return_address hpc hsize, rfl⟩

end Sys2Proof.Machine
end

section
/-! SUPPORT. `out`, `in`, `noop` (`48_io_noop.md`): what `out` gives for a value that resolves, what `in` gives for a register
and the bytes offered, and how the host's bytes end the wait of an `in`. -/

namespace Sys2Proof.Machine

/-! ### The meanings -/

/-- `out` of a value (R180). -/
theorem exec_out_of_resolve {s : State} {a : Operand} {v : Word} (ha : s.resolve a = .ok v) :
    exec (.out a) s = .next ((s.emit (charOf v)).advance 1) := by
  simp only [exec, execOut, ha, bind, Except.bind, pure, Except.pure, State.finish]

/-- `in` into a register, with a byte offered that is not the sentinel (R181). -/
theorem exec_inp_of_byte {s : State} (d : Fin 8) {c : Byte} {rest : List Byte} (hi : s.input = c :: rest)
    (hc : c ≠ s.params.sentinel) :
    exec (.inp (.reg d)) s = .next (((s.setInput rest).setReg d (c.setWidth 16)).advance 1) := by
  simp only [exec, execInp, destination, hi, if_neg hc]

/-- `in` into a register, with the sentinel offered (`60_exceptions.md` R214). -/
theorem exec_inp_of_sentinel {s : State} (d : Fin 8) {rest : List Byte} (hi : s.input = s.params.sentinel :: rest) :
    exec (.inp (.reg d)) s = .next ((s.setInput rest).setSusp .debug) := by
  simp only [exec, execInp, destination, hi, if_true]

/-- `in` into a register, with no byte offered (`60_exceptions.md` R213). -/
theorem exec_inp_of_no_byte {s : State} (d : Fin 8) (hi : s.input = []) :
    exec (.inp (.reg d)) s = .fault .waitingForInput := by
  simp only [exec, execInp, destination, hi]

/-- `in` with no destination, whatever is offered (R181). -/
theorem exec_inp_of_ne_reg {s : State} {a : Operand} (ha : ∀ d, a ≠ .reg d) :
    exec (.inp a) s = .next (s.raise .invalidDestination (some 20)) := by
  simp only [exec, execInp, destination_of_ne_reg ha, State.finish]

/-- A byte keeps its value in a register. -/
theorem toNat_word_of_byte (c : Byte) : (c.setWidth 16).toNat = c.toNat :=
  BitVec.toNat_setWidth_of_le (by decide)

/-! ### The statements -/

/-- Settles O29: the clauses part on whether the operand resolves. -/
theorem outSendsOneByte : Obligations.OutSendsOneByte := by
  refine fun a s => ⟨rfl, fun v => exec_out_of_resolve, ?_⟩
  rintro w rfl
  rfl

/-- Settles O30: the clauses part on whether the operand is a register, and then on what the input begins with. -/
theorem inTakesOneByte : Obligations.InTakesOneByte := by
  refine fun a s => ⟨rfl, ?_, ?_, ?_, exec_inp_of_ne_reg⟩
  · rintro d c rest rfl hi hc
    exact ⟨_, toNat_word_of_byte c, exec_inp_of_byte d hi hc⟩
  · rintro d rest rfl hi
    exact exec_inp_of_sentinel d hi
  · rintro d rfl hi
    exact exec_inp_of_no_byte d hi

/-- Settles O31: the same `in` is fetched before and after the offer, and then the input begins with the first byte offered. -/
theorem offeredByteEndsTheWait : Obligations.OfferedByteEndsTheWait := by
  intro s d c bs hr hs hf hi hc
  have hi' : (s.offerInput (c :: bs)).input = c :: bs := by rw [State.offerInput, State.setInput_input, hi, List.nil_append]
  refine ⟨?_, (((s.offerInput (c :: bs)).setInput bs).setReg d (c.setWidth 16)).advance 1, ?_, ?_, rfl, rfl⟩
  · rw [step_of_fetch hr hs hf, exec_inp_of_no_byte d hi]
  · rw [step_of_fetch (s := s.offerInput (c :: bs)) hr hs hf, exec_inp_of_byte d hi' hc]
  · rw [State.advance_reg, State.setReg_reg_same, toNat_word_of_byte]

/-- Settles O32: `noop` is `State.advance` past its one word. -/
theorem noopOnlyAdvances : Obligations.NoopOnlyAdvances := ⟨rfl, fun _ => rfl⟩

end Sys2Proof.Machine
end

section
/-! SUPPORT. The end of a run, and the console streams (`60_exceptions.md` R200 to R214): when a step stops, what a step into
FAULTED or into the debug channel is, and what a step does to the two streams. -/

namespace Sys2Proof.Machine

/-! ### When a step stops -/

/-- A halted core stops (R204). -/
theorem step_of_halted {s : State} (h : s.run = .halted) : step s = .fault .halted := by simp only [step, h]

/-- A faulted core stops (R204). -/
theorem step_of_faulted {s : State} (h : s.run = .faulted) : step s = .fault .faulted := by simp only [step, h]

/-- A running core has a next state, or waits for a byte at an `in`, or for the end of a command line in the debug channel
(R213, R215). -/
theorem step_next_or_waits {s : State} (hr : s.run = .running) :
    (∃ t, step s = .next t) ∨
    (step s = .fault .waitingForInput ∧ s.susp = .none ∧ s.input = [] ∧ ∃ d, fetch s = .ok (.inp (.reg d))) ∨
    (step s = .fault .waitingForCommandLine ∧ s.susp = .debug ∧ ∀ b ∈ s.input, b.toNat ≠ 10) := by
  cases hs : s.susp with
  | debug =>
    rw [step_debug hr hs]
    cases hl : splitLine s.input with
    | none => exact .inr (.inr ⟨debugStep_waits hl, rfl, splitLine_eq_none.1 hl⟩)
    | some lr => exact .inl ⟨_, debugStep_of_line hl⟩
  | none =>
    cases hf : fetch s with
    | error e => exact .inl ⟨_, step_of_fetch_error hr hs hf⟩
    | ok i =>
      rw [step_of_fetch hr hs hf]
      obtain hn | ⟨hw, hi, d, rfl⟩ := exec_stops_only_waiting i s
      · exact .inl hn
      · exact .inr (.inl ⟨hw, rfl, hi, d, rfl⟩)

/-- Settles O8: a step that gives a next state starts from a running core. -/
theorem endedCoreHasNoStep : Obligations.EndedCoreHasNoStep := fun _ hr _ h => hr (step_cases h).1

/-- Settles O9: a running core has a next state or waits, and an ended core stops. -/
theorem runningCoreWaitsInTwoCasesOnly : Obligations.RunningCoreWaitsInTwoCasesOnly := by
  refine ⟨fun s r h => ?_, fun s f hr h => ?_⟩
  · cases hr : s.run with
    | halted => rw [step_of_halted hr] at h; cases h
    | faulted => rw [step_of_faulted hr] at h; cases h
    | running => obtain ⟨t, e⟩ | ⟨e, -⟩ | ⟨e, -⟩ := step_next_or_waits hr <;> rw [e] at h <;> cases h
  · obtain ⟨t, e⟩ | ⟨e, hw⟩ | ⟨e, hw⟩ := step_next_or_waits hr <;> rw [e] at h <;> cases h
    · exact .inl ⟨rfl, hw⟩
    · exact .inr ⟨rfl, hw⟩

/-! ### Taking a fault -/

/-- A step into FAULTED raises a fault that records the opcode word at pc (R201, R203). -/
theorem eq_raise_of_step {s t : State} (h : step s = .next t) (ht : t.run = .faulted) :
    ∃ k, t = s.raise k (s.mem.read s.pc) := by
  obtain ⟨hr, ⟨-, i, hf, he⟩ | ⟨-, k, rfl⟩ | ⟨-, line, rest, -, rfl⟩⟩ := step_cases h
  · obtain ⟨e, -⟩ | ⟨-, rfl⟩ | ⟨k, rfl⟩ := he.run_fault_cases
    · rw [e, hr] at ht; cases ht
    · cases ht
    · exact ⟨k, by rw [(fetch_eq_ok hf).1]⟩
  · exact ⟨k, rfl⟩
  · rw [State.setSusp_run, (runCommand_leaves _ _).1, State.setInput_run, hr] at ht; cases ht

/-- Settles O10: the record of `State.raise` holds pc and the opcode word there. -/
theorem faultEntryIsPrecise : Obligations.FaultEntryIsPrecise :=
  fun _ _ h ht => ⟨eq_raise_of_step h ht, step_of_faulted ht⟩

/-- Settles O58: a stack deeper than the limit is full. -/
theorem pushAboveTheLimitFaults : Obligations.PushAboveTheLimitFaults := by
  intro a s v limit ha hl hlt
  have hfull : s.stackFull = true := State.stackFull_iff.2 ⟨limit, hl, hlt.le⟩
  exact ⟨exec_push_of_full ha hfull, exec_call_of_full ha hfull⟩

/-! ### The streams -/

/-- An instruction leaves the output, or is an `out` that appends its byte (R212). -/
theorem Effect.output_cases {i : Instr} {s t : State} (h : Effect i s t) :
    t.output = s.output ∨ ∃ a v, i = .out a ∧ s.resolve a = .ok v ∧ t.output = s.output ++ [charOf v] := by
  cases h with
  | sent a v hi ha => exact .inr ⟨a, v, hi, ha, rfl⟩
  | _ => exact .inl rfl

/-- An instruction leaves the input, or is an `in` that takes its first byte (R213). -/
theorem Effect.input_cases {i : Instr} {s t : State} (h : Effect i s t) :
    t.input = s.input ∨ ∃ d c, i = .inp (.reg d) ∧ s.input = c :: t.input := by
  cases h with
  | took d c rest hi hs => exact .inr ⟨d, c, hi, hs⟩
  | suspended d rest hi hs => exact .inr ⟨d, _, hi, hs⟩
  | _ => exact .inl rfl

/-- Settles O44: an instruction takes at most one byte and sends at most one; a debug command takes a line and sends nothing. -/
theorem consoleStreamsMoveInOrder : Obligations.ConsoleStreamsMoveInOrder := by
  intro s t h
  obtain ⟨-, ⟨hn, i, hf, he⟩ | ⟨-, k, rfl⟩ | ⟨hd, line, rest, hl, rfl⟩⟩ := step_cases h
  · refine ⟨he.output_cases.imp_right ?_, ?_⟩
    · rintro ⟨a, v, rfl, ha, ho⟩
      exact ⟨hn, a, v, hf, ha, ho⟩
    · obtain hin | ⟨d, c, rfl, hin⟩ := he.input_cases
      · exact ⟨⟨[], hin.symm⟩, .inl hin⟩
      · exact ⟨⟨[c], hin⟩, .inr (.inr ⟨d, hf⟩)⟩
  · exact ⟨.inl rfl, ⟨[], rfl⟩, .inl rfl⟩
  · obtain ⟨-, -, ho, hi, -⟩ := runCommand_leaves (parseCommand line) (s.setInput rest)
    obtain ⟨nl, -, hin⟩ := splitLine_eq_some hl
    refine ⟨.inl ho, ⟨line ++ [nl], ?_⟩, .inr (.inl hd)⟩
    rw [State.setSusp_input, hi, State.setInput_input, hin, List.append_assoc, List.singleton_append]

/-! ### Entering the debug channel -/

/-- Of the instructions of an unsuspended core only an `in` that takes the sentinel suspends it (R214). -/
theorem Effect.of_susp_debug {i : Instr} {s t : State} (h : Effect i s t) (hn : s.susp = .none) (ht : t.susp = .debug) :
    ∃ d rest, i = .inp (.reg d) ∧ s.input = s.params.sentinel :: rest ∧ t = (s.setInput rest).setSusp .debug := by
  cases h with
  | suspended d rest hi hs => exact ⟨d, rest, hi, hs, rfl⟩
  | _ => cases hn.symm.trans ht

/-- Settles O47: a fetch's fault leaves the suspension, and a debug command ends it. -/
theorem debugIsEnteredOnlyFromIn : Obligations.DebugIsEnteredOnlyFromIn := by
  intro s t h ht
  obtain ⟨-, ⟨hn, i, hf, he⟩ | ⟨hn, k, rfl⟩ | ⟨-, line, rest, -, rfl⟩⟩ := step_cases h
  · obtain ⟨d, rest, rfl, hi, rfl⟩ := he.of_susp_debug hn ht
    exact ⟨hn, d, rest, hf, hi, rfl⟩
  · cases hn.symm.trans ht
  · cases ht

end Sys2Proof.Machine
end

section
/-! SUPPORT. The debug channel's step (`60_exceptions.md` R215 to R222): the command of the line it takes, and what each command
but `load` and an accepted `save` gives. -/

namespace Sys2Proof.Machine

/-- The step of a suspended core with a line in its input runs that line's command (R215). -/
theorem step_of_command (c : Command) {s : State} {line : Line} {rest : List Byte} (h : AtCommand s line rest)
    (hc : parseCommand line = c) : step s = .next ((runCommand c (s.setInput rest)).setSusp .none) := by
  obtain ⟨hr, hs, hl⟩ := h
  rw [step_debug hr hs, debugStep_of_line hl, hc]

/-- Settles O48: the line is what stands before the first byte 10, and no command gives bytes back to the input. -/
theorem debugTakesOneLine : Obligations.DebugTakesOneLine := by
  refine fun s hr hs => ⟨fun line rest nl hi hline hnl => ?_, fun h => ?_⟩
  · have hl : splitLine s.input = some (line, rest) := by rw [hi, splitLine_of_newline hline hnl]
    obtain ⟨-, -, -, hin, -⟩ := runCommand_leaves (parseCommand line) (s.setInput rest)
    exact ⟨_, step_of_command _ ⟨hr, hs, hl⟩ rfl, hin, rfl⟩
  · rw [step_debug hr hs, debugStep_waits (splitLine_eq_none.2 h)]

/-- Settles O50: of the commands only a `load` that reads its snapshot sets pc. -/
theorem debugLeavesAfterOneCommand : Obligations.DebugLeavesAfterOneCommand := by
  intro s t hs h
  obtain ⟨hr, ⟨hn, -⟩ | ⟨hn, -⟩ | ⟨-, line, rest, hl, rfl⟩⟩ := step_cases h
  · cases hs.symm.trans hn
  · cases hs.symm.trans hn
  · obtain ⟨hrun, hfault, hout, -⟩ := runCommand_leaves (parseCommand line) (s.setInput rest)
    refine ⟨rfl, hrun.trans hr, hfault, hout, ?_⟩
    obtain ⟨name, x, hc, hx, e⟩ | ⟨i, v, hi, -, -, e⟩ | ⟨x, e⟩ := runCommand_cases (parseCommand line) (s.setInput rest)
    · exact .inr ⟨line, rest, name, x, ⟨hr, hs, hl⟩, hc, hx, by rw [e]; rfl⟩
    · exact .inl (by rw [e]; rfl)
    · exact .inl (by rw [e]; rfl)

/-- `setreg` with an index and a value in range (R218). -/
theorem cmdSetreg_of_le {i v : Nat} (hi : i < 8) (hv : v ≤ 32775) (s : State) :
    cmdSetreg i v s = s.setReg ⟨i, hi⟩ (BitVec.ofNat 16 v) := by
  rw [cmdSetreg, dif_pos hi, if_pos hv]

/-- `setreg` with a value out of range (R218). -/
theorem cmdSetreg_of_value_gt {i v : Nat} (hi : i < 8) (hv : 32775 < v) (s : State) :
    cmdSetreg i v s = s.report .badArguments := by
  rw [cmdSetreg, dif_pos hi, if_neg hv.not_ge]

/-- `setreg` with an index out of range (R218). -/
theorem cmdSetreg_of_index_ge {i : Nat} (hi : 8 ≤ i) (v : Nat) (s : State) :
    cmdSetreg i v s = s.report .indexOutOfRange := by
  rw [cmdSetreg, dif_neg hi.not_gt]

/-- Settles O51: the clauses part on the ranges of the index and the value. -/
theorem setregWritesOneRegister : Obligations.SetregWritesOneRegister := by
  intro s line rest i v h hc
  rw [step_of_command _ h hc, runCommand]
  refine ⟨fun hi hv => ⟨BitVec.ofNat 16 v, ?_, ?_⟩, fun hi => ?_, fun hi hv => ?_⟩
  · rw [BitVec.toNat_ofNat]
    omega
  · rw [cmdSetreg_of_le hi hv]; rfl
  · rw [cmdSetreg_of_index_ge hi]; rfl
  · rw [cmdSetreg_of_value_gt hi hv]; rfl

/-- A `save` that storage refuses (R216). -/
theorem cmdSave_of_refused (name : Line) {s : State} (h : s.host.saveFails = true) :
    cmdSave name s = s.report .saveFailed := if_pos h

/-- Settles O52: each command is its own report or flag, and a command that is no `load` and no `setreg` sets only the host's
side. -/
theorem otherCommandsLeaveTheCore : Obligations.OtherCommandsLeaveTheCore := by
  intro s line rest h
  refine ⟨fun hload hsetreg => ?_, step_of_command .barfreg h, step_of_command .barfstack h,
    fun on => step_of_command (.logging on) h, step_of_command .unrecognized h, step_of_command .badArguments h,
    fun name hc hf => ?_⟩
  · obtain ⟨name, x, hc, -⟩ | ⟨i, v, -, hc, -⟩ | ⟨x, e⟩ := runCommand_cases (parseCommand line) (s.setInput rest)
    · exact absurd hc (hload name)
    · exact absurd hc (hsetreg i v)
    · exact ⟨x, by rw [step_of_command _ h rfl, e]; rfl⟩
  · rw [step_of_command _ h hc, runCommand, cmdSave_of_refused (s := s.setInput rest) name hf]; rfl

end Sys2Proof.Machine
end

section
/-! SUPPORT. Command lines (`60_exceptions.md` R215 to R221): the tokens of a line with one space between them, and the command
that a line's tokens name. -/

namespace Sys2Proof.Machine

/-! ### Tokens -/

/-- A token: at least one byte, none of them white space (log entry 14). -/
def IsToken (t : Line) : Prop := t ≠ [] ∧ ∀ b ∈ t, isSpace b = false

/-- A token alone on its line. -/
theorem IsToken.tokens {t : Line} (h : IsToken t) : tokens t = [t] := tokens_single h.2 h.1

/-- A token, a space, and more. -/
theorem IsToken.tokens_append {t : Line} (h : IsToken t) (bs : Line) :
    Machine.tokens (t ++ 0x20 :: bs) = t :: Machine.tokens bs := tokens_cons h.2 h.1 rfl bs

/-- Two tokens with a space between them. -/
theorem tokens_pair {t u : Line} (ht : IsToken t) (hu : IsToken u) : tokens (t ++ 0x20 :: u) = [t, u] := by
  rw [ht.tokens_append, hu.tokens]

/-- Three tokens with a space between each two. -/
theorem tokens_triple {t u v : Line} (ht : IsToken t) (hu : IsToken u) (hv : IsToken v) :
    tokens (t ++ 0x20 :: u ++ 0x20 :: v) = [t, u, v] := by
  rw [List.append_assoc, List.cons_append, ht.tokens_append, tokens_pair hu hv]

/-- The name of every command is a token. -/
theorem isToken_of_mem_names {t : Line}
    (h : t ∈ [nameSave, nameLoad, nameSetreg, nameBarfreg, nameBarfstack, nameLogging]) : IsToken t := by
  have hall : ∀ t ∈ [nameSave, nameLoad, nameSetreg, nameBarfreg, nameBarfstack, nameLogging],
      t ≠ [] ∧ ∀ b ∈ t, isSpace b = false := by decide
  exact hall t h

/-! ### Decimal arguments -/

/-- What is read as a decimal writes the number (log entry 15). -/
theorem parseDecimal_iff_isDecimal {t : Line} {n : Nat} : parseDecimal t = some n ↔ IsDecimal t n := parseDecimal_eq_some

/-- What writes no number is not read as a decimal. -/
theorem parseDecimal_eq_none {t : Line} (h : ∀ n, ¬ IsDecimal t n) : parseDecimal t = none :=
  Option.eq_none_iff_forall_ne_some.2 fun n hn => h n (parseDecimal_iff_isDecimal.1 hn)

/-- ASCII digits are no white space. -/
theorem IsDecimal.isToken {t : Line} {n : Nat} (h : IsDecimal t n) : IsToken t := by
  obtain ⟨hne, hd, -⟩ := h
  refine ⟨hne, fun b hb => ?_⟩
  have := hd b hb
  simp only [isSpace, Bool.or_eq_false_iff, beq_eq_false_iff_ne, Bool.and_eq_false_iff, decide_eq_false_iff_not]
  omega

/-- `setreg` with two decimals (R218). -/
theorem setregCommand_of_isDecimal {i v : Line} {m n : Nat} (hi : IsDecimal i m) (hv : IsDecimal v n) :
    setregCommand [i, v] = .setreg m n := by
  simp only [setregCommand, parseDecimal_iff_isDecimal.2 hi, parseDecimal_iff_isDecimal.2 hv]

/-- `setreg` with an argument that is no decimal (R218, log entry 17). -/
theorem setregCommand_of_not_isDecimal {i v : Line} (h : (∀ n, ¬ IsDecimal i n) ∨ ∀ n, ¬ IsDecimal v n) :
    setregCommand [i, v] = .badArguments := by
  obtain h | h := h
  · simp only [setregCommand, parseDecimal_eq_none h]
  · simp only [setregCommand, parseDecimal_eq_none h]
    cases parseDecimal i <;> rfl

/-! ### The command a line's tokens name (R215) -/

section

variable {line : Line} {args : List Line}

/-- `save` takes the first argument, or the default name (R216). -/
theorem parseCommand_save (h : tokens line = nameSave :: args) :
    parseCommand line = .save (args.headD Config.defaultSnapshotName) := by
  rw [parseCommand, h]; rfl

/-- `load` takes the first argument, or the default name (R217). -/
theorem parseCommand_load (h : tokens line = nameLoad :: args) :
    parseCommand line = .load (args.headD Config.defaultSnapshotName) := by
  rw [parseCommand, h]; rfl

/-- `setreg` looks at its arguments (R218). -/
theorem parseCommand_setreg (h : tokens line = nameSetreg :: args) : parseCommand line = setregCommand args := by
  rw [parseCommand, h]; rfl

/-- `logging` looks at its argument (R220). -/
theorem parseCommand_logging (h : tokens line = nameLogging :: args) : parseCommand line = loggingCommand args := by
  rw [parseCommand, h]; rfl

/-- A first token that names no command (R221). -/
theorem parseCommand_unknown {t : Line} (h : tokens line = t :: args)
    (ht : t ∉ [nameSave, nameLoad, nameSetreg, nameBarfreg, nameBarfstack, nameLogging]) :
    parseCommand line = .unrecognized := by
  simp only [List.mem_cons, List.not_mem_nil, or_false, not_or] at ht
  obtain ⟨h1, h2, h3, h4, h5, h6⟩ := ht
  simp only [parseCommand, h, if_neg h1, if_neg h2, if_neg h3, if_neg h4, if_neg h5, if_neg h6]

/-- A line with no token (R221, log entry 25). -/
theorem parseCommand_no_token (h : tokens line = []) : parseCommand line = .unrecognized := by
  simp only [parseCommand, h]

end

/-- `logging` with an argument that is neither `on` nor `off` (log entry 17). -/
theorem loggingCommand_of_ne {t : Line} (hon : t ≠ nameOn) (hoff : t ≠ nameOff) : loggingCommand [t] = .badArguments := by
  simp only [loggingCommand, if_neg hon, if_neg hoff]

/-- Settles O49: each clause gives the tokens of its line, and the first of them names the command; a line with no variable
part is evaluated. -/
theorem commandLinesAreRead : Obligations.CommandLinesAreRead := by
  have hsave : IsToken nameSave := isToken_of_mem_names (by decide)
  have hload : IsToken nameLoad := isToken_of_mem_names (by decide)
  have hsetreg : IsToken nameSetreg := isToken_of_mem_names (by decide)
  have hlogging : IsToken nameLogging := isToken_of_mem_names (by decide)
  refine ⟨fun name hn hs => ⟨?_, ?_⟩, by decide, by decide, fun i v m n hi hv => ?_, fun i v hi hv hsi hsv hbad => ?_,
    fun i hi hsi => ?_, by decide, by decide, by decide, by decide, by decide, fun t ht hst hon hoff => ?_, by decide,
    fun t ht hst hno => ⟨?_, fun args => ?_⟩, by decide, fun line hline => ?_⟩
  · exact parseCommand_save (tokens_pair hsave ⟨hn, hs⟩)
  · exact parseCommand_load (tokens_pair hload ⟨hn, hs⟩)
  · rw [parseCommand_setreg (tokens_triple hsetreg hi.isToken hv.isToken), setregCommand_of_isDecimal hi hv]
  · rw [parseCommand_setreg (tokens_triple hsetreg ⟨hi, hsi⟩ ⟨hv, hsv⟩), setregCommand_of_not_isDecimal hbad]
  · rw [parseCommand_setreg (tokens_pair hsetreg ⟨hi, hsi⟩)]; rfl
  · rw [parseCommand_logging (tokens_pair hlogging ⟨ht, hst⟩), loggingCommand_of_ne hon hoff]
  · exact parseCommand_unknown (IsToken.tokens ⟨ht, hst⟩) hno
  · exact parseCommand_unknown (IsToken.tokens_append ⟨ht, hst⟩ args) hno
  · exact parseCommand_no_token (tokens_of_spaces hline)

end Sys2Proof.Machine
end

section
/-! SUPPORT. Snapshots (`60_exceptions.md` R216, R217, R224, R225): what is read is what the artifacts hold, a saved state's
artifacts hold its components, and what `load`, `save` and the launch from a snapshot do with them. -/

namespace Sys2Proof.Machine

/-! ### The text record (R224) -/

/-- What is read as a Word writes it in decimal. -/
theorem parseWord_iff_isDecimal {l : Line} {w : Word} : parseWord l = some w ↔ IsDecimal l w.toNat ∧ w.toNat ≤ 32775 := by
  rw [parseWord_eq_some, parseDecimal_iff_isDecimal]

/-- What is read as Words writes them, one a line. -/
theorem parseWords_iff_wordLines {ls : List Line} {ws : List Word} : parseWords ls = some ws ↔ WordLines ls ws := by
  simp only [parseWords_eq_some, parseWord_iff_isDecimal, WordLines]

/-- What is read as a record: a decimal pc, the lines of 8 registers, and the lines of the stack. -/
theorem parseRecord_eq_some {lines : List Line} {m : Memory} {x : Snapshot} :
    parseRecord lines m = some x ↔
      (∃ pcLine regLines stackLines, lines = pcLine :: (regLines ++ stackLines) ∧ regLines.length = 8 ∧
        IsDecimal pcLine x.pc ∧ WordLines regLines x.regs.toList ∧ WordLines stackLines x.stack) ∧ x.mem = m := by
  constructor
  · intro h
    simp only [parseRecord] at h
    split at h
    · cases h
    · rename_i l ls
      split at h
      · rename_i p rs st hp hr hs
        split at h
        · rename_i hlen
          cases h
          have hwr := parseWords_iff_wordLines.1 hr
          exact ⟨⟨l, ls.take 8, ls.drop 8, by rw [List.take_append_drop], by rw [hwr.length_eq, hlen],
            parseDecimal_iff_isDecimal.1 hp, hwr, parseWords_iff_wordLines.1 hs⟩, rfl⟩
        · cases h
      · cases h
  · rintro ⟨⟨pcLine, regLines, stackLines, rfl, hlen, hp, hr, hs⟩, rfl⟩
    have hregs : x.regs.toList.length = 8 := by simp
    simp only [parseRecord, List.take_left' hlen, List.drop_left' hlen, parseDecimal_iff_isDecimal.2 hp,
      parseWords_iff_wordLines.2 hr, parseWords_iff_wordLines.2 hs, dif_pos hregs]
    rfl

/-! ### The memory dump (R225) -/

/-- What is read as a dump: an even number of bytes, of at most 32768 words, and the word store of that image. -/
theorem parseDump_eq_some {bs : List Byte} {m : Memory} :
    parseDump bs = some m ↔ bs.length % 2 = 0 ∧ bs.length ≤ 65536 ∧ m = Memory.ofImage bs := by
  unfold parseDump
  split <;> rename_i h
  · simp [h, eq_comm]
  · simp only [reduceCtorEq, false_iff]
    tauto

/-- The word store of an image is the canonical one with those cells. -/
theorem Memory.eq_ofImage_iff {bs : List Byte} {m : Memory} (he : bs.length % 2 = 0) (hl : bs.length ≤ 65536) :
    m = Memory.ofImage bs ↔ m.wf ∧ m.size = bs.length / 2 ∧ ∀ k, k < bs.length / 2 → ∃ w, m.read k = some w ∧
      w.toNat = (bs.getD (2 * k) 0).toNat + 256 * (bs.getD (2 * k + 1) 0).toNat := by
  constructor
  · rintro rfl
    exact ⟨ofImage_wf he hl, rfl, fun k hk => ⟨_, read_ofImage bs hk, wordOfBytes_toNat _ _⟩⟩
  · rintro ⟨hwf, hsize, hread⟩
    refine ext_of_read hwf (ofImage_wf he hl) hsize fun k hk => ?_
    obtain ⟨w, hw, hv⟩ := hread k (hsize ▸ hk)
    rw [hw, read_ofImage bs (hsize ▸ hk), BitVec.eq_of_toNat_eq (hv.trans (wordOfBytes_toNat _ _).symm)]

/-! ### The two artifacts -/

/-- The artifacts hold a snapshot exactly when the record and the dump are both read as it. -/
theorem holdsSnapshot_iff {lines : List Line} {bs : List Byte} {x : Snapshot} :
    HoldsSnapshot lines bs x ↔ parseRecord lines x.mem = some x ∧ parseDump bs = some x.mem := by
  rw [HoldsSnapshot, parseRecord_eq_some, parseDump_eq_some]
  refine and_congr (and_iff_left rfl).symm ⟨?_, ?_⟩
  · rintro ⟨he, hl, hm⟩
    exact ⟨he, hl, (Memory.eq_ofImage_iff he hl).2 hm⟩
  · rintro ⟨he, hl, hm⟩
    exact ⟨he, hl, (Memory.eq_ofImage_iff he hl).1 hm⟩

section

variable {files : List Artifact} {name : Line} {lines : List Line} {bs : List Byte}

/-- Two artifacts that stand in storage are read as the snapshot they hold (R217). -/
theorem readSnapshot_of_holds (hs : Stands files name lines bs) {x : Snapshot} (hx : HoldsSnapshot lines bs x) :
    readSnapshot files name = .ok x := by
  obtain ⟨a, hfind, hrec, hdump⟩ := hs
  obtain ⟨hr, hd⟩ := holdsSnapshot_iff.1 hx
  simp only [readSnapshot, hfind, parseArtifact, hrec, hdump, hd, hr]

/-- Two artifacts that stand in storage are read as a snapshot they hold, or are corrupt (R217). -/
theorem readSnapshot_cases (hs : Stands files name lines bs) :
    (∃ x, readSnapshot files name = .ok x ∧ HoldsSnapshot lines bs x) ∨ readSnapshot files name = .error .corrupt := by
  obtain ⟨a, hfind, hrec, hdump⟩ := hs
  simp only [readSnapshot, hfind, parseArtifact, hrec, hdump]
  cases hd : parseDump bs with
  | none => exact .inr rfl
  | some m =>
    cases hr : parseRecord lines m with
    | none => exact .inr (by simp only [hr])
    | some x =>
      obtain rfl := (parseRecord_eq_some.1 hr).2
      exact .inl ⟨x, by simp only [hr], holdsSnapshot_iff.2 ⟨hr, hd⟩⟩

/-- A snapshot that is read is the one that the two artifacts hold. -/
theorem holds_of_readSnapshot (hs : Stands files name lines bs) {x : Snapshot} (h : readSnapshot files name = .ok x) :
    HoldsSnapshot lines bs x := by
  obtain ⟨y, hy, hx⟩ | he := readSnapshot_cases hs
  · cases hy.symm.trans h
    exact hx
  · cases he.symm.trans h

/-- Two artifacts that stand in storage and hold no snapshot are corrupt (R217). -/
theorem readSnapshot_of_not_holds (hs : Stands files name lines bs) (hx : ∀ x, ¬ HoldsSnapshot lines bs x) :
    readSnapshot files name = .error .corrupt :=
  (readSnapshot_cases hs).resolve_left fun ⟨x, _, h⟩ => hx x h

/-- A missing artifact is not found (R217). -/
theorem readSnapshot_of_not_stands (h : ∀ lines bs, ¬ Stands files name lines bs) :
    readSnapshot files name = .error .notFound := by
  rw [readSnapshot]
  split
  · rename_i a hfind
    rw [parseArtifact]
    split
    · rename_i lines bs hrec hdump
      exact absurd ⟨a, hfind, hrec, hdump⟩ (h lines bs)
    · rfl
  · rfl

end

/-- Settles O59: reading a snapshot, case by case of what stands in storage. -/
theorem snapshotIsReadUnderItsConditions : Obligations.SnapshotIsReadUnderItsConditions := fun _ _ =>
  ⟨fun _ _ hs => ⟨fun _ => ⟨holds_of_readSnapshot hs, readSnapshot_of_holds hs⟩, readSnapshot_of_not_holds hs⟩,
    readSnapshot_of_not_stands⟩

/-! ### Load (R217) -/

/-- Settles O53: `load` restores the snapshot it reads, or reports why it reads none. -/
theorem loadIsAllOrNothing : Obligations.LoadIsAllOrNothing := by
  intro s line rest name h hc
  rw [step_of_command _ h hc, runCommand, cmdLoad, State.setInput_host]
  refine ⟨fun lines bs x hs hx => ?_, fun lines bs hs hx => ?_, fun hs => ?_⟩
  · rw [readSnapshot_of_holds hs hx]; rfl
  · rw [readSnapshot_of_not_holds hs hx]; rfl
  · rw [readSnapshot_of_not_stands hs]; rfl

/-! ### Save (R216) -/

/-- The four components of a state. -/
def State.snapshot (s : State) : Snapshot := { pc := s.pc, regs := s.regs, stack := s.stack, mem := s.mem }

/-- The registers of a state as a list hold Words when each register does. -/
theorem State.Inv.isWord_of_mem_regs {s : State} (h : s.Inv) {w : Word} (hw : w ∈ s.regs.toList) : IsWord w := by
  obtain ⟨r, hr, rfl⟩ := List.getElem_of_mem hw
  rw [Vector.getElem_toList]
  exact h.regs_word ⟨r, by simpa using hr⟩

/-- What `save` writes of a consistent state holds the state's four components (R224, R225). -/
theorem holdsSnapshot_of_inv {s : State} (h : s.Inv) : HoldsSnapshot (recordLines s) s.mem.dump s.snapshot := by
  have hwords {ws : List Word} (hws : ∀ w ∈ ws, IsWord w) : WordLines (ws.map fun w => printDecimal w.toNat) ws :=
    parseWords_iff_wordLines.1 (parseWords_map_print hws)
  have hpc : IsDecimal (printDecimal s.pc) s.pc := parseDecimal_iff_isDecimal.1 (parseDecimal_printDecimal s.pc)
  have hsize := h.mem_wf.1
  refine holdsSnapshot_iff.2 ⟨parseRecord_eq_some.2 ⟨⟨printDecimal s.pc, _, _, ?_, ?_, hpc,
    hwords fun _ => h.isWord_of_mem_regs, hwords h.stack_word⟩, rfl⟩, parseDump_eq_some.2 ⟨?_, ?_, ?_⟩⟩
  · rw [recordLines, List.map_append]; rfl
  · rw [List.length_map, Vector.length_toList]
  · rw [Memory.dump_length]; omega
  · rw [Memory.dump_length]; omega
  · exact (Memory.ofImage_dump h.mem_wf).symm

/-- The artifacts just stored stand under their name. -/
theorem stands_storeArtifact (files : List Artifact) (name : Line) (s : State) :
    Stands (storeArtifact files (artifactOf name s)) name (recordLines s) s.mem.dump :=
  ⟨artifactOf name s, List.find?_cons_of_pos (by simp [artifactOf]), rfl, rfl⟩

/-- What stands under another name is as before (log entry 18). -/
theorem find?_storeArtifact_of_ne (files : List Artifact) {a : Artifact} {other : Line} (h : other ≠ a.name) :
    (storeArtifact files a).find? (fun b => b.name = other) = files.find? (fun b => b.name = other) := by
  rw [storeArtifact, List.find?_cons_of_neg (by simpa using h.symm), List.find?_filter]
  congr 1
  funext b
  by_cases hb : b.name = other
  · simp [hb, h]
  · simp [hb]

/-- A suspended core whose `save` storage accepts stores the artifacts of its state (R216). -/
theorem step_of_save {s : State} {line : Line} {rest : List Byte} {name : Line} (h : AtCommand s line rest)
    (hc : parseCommand line = .save name) (hf : s.host.saveFails = false) :
    step s = .next { s with
      input := rest, susp := .none, host := { s.host with files := storeArtifact s.host.files (artifactOf name s) } } := by
  have hf' : ¬ (s.setInput rest).host.saveFails = true := by simp [hf]
  rw [step_of_command _ h hc, runCommand, cmdSave, if_neg hf']
  rfl

/-- Settles O60: the artifacts are those of the state. -/
theorem saveWritesTheSnapshot : Obligations.SaveWritesTheSnapshot := fun s _ _ name hs h hc hf =>
  ⟨_, recordLines s, s.mem.dump, step_of_save h hc hf, stands_storeArtifact _ name s, holdsSnapshot_of_inv hs,
    fun _ => find?_storeArtifact_of_ne s.host.files (a := artifactOf name s)⟩

/-- Settles O54: the artifacts that the `save` stored hold the state's components, so the `load` restores these. -/
theorem snapshotRoundTrip : Obligations.SnapshotRoundTrip := by
  intro s u line line' rest rest' name hs hf h hc h' hc'
  refine ⟨_, step_of_save h hc hf, rfl, rfl, rfl, rfl, fun hfiles => ?_⟩
  have hstands : Stands u.host.files name (recordLines s) s.mem.dump := hfiles ▸ stands_storeArtifact _ name s
  obtain ⟨hload, -⟩ := loadIsAllOrNothing u line' rest' name h' hc'
  exact ⟨_, hload _ _ _ hstands (holdsSnapshot_of_inv hs), rfl, rfl, rfl, rfl⟩

/-! ### The launch from a snapshot (`70_reset_and_hazards.md` R253) -/

/-- A launch from a snapshot that is read restores it in a state just constructed, over the storage it was read from. -/
theorem launchSnapshot_of_read (p : Params) {files : List Artifact} {name : Line} {x : Snapshot}
    (hx : readSnapshot files name = .ok x) :
    State.launchSnapshot p files name = .next (((State.construct p Memory.empty).setHost
      { (State.construct p Memory.empty).host with files := files }).restore x) := by
  rw [State.launchSnapshot, hx]

/-- A snapshot that is not read is no launch (D24). -/
theorem launchSnapshot_of_error (p : Params) {files : List Artifact} {name : Line} {e : SnapshotError}
    (he : readSnapshot files name = .error e) : ∃ r, State.launchSnapshot p files name = .refused r := by
  rw [State.launchSnapshot, he]
  cases e <;> exact ⟨_, rfl⟩

/-- Settles O56: the launch restores the snapshot in a consistent state. -/
theorem launchFromSnapshot : Obligations.LaunchFromSnapshot := by
  refine fun p files name => ⟨fun x hx => ?_, fun e he s h => ?_⟩
  · have hs : (State.construct p Memory.empty).Inv := State.construct_inv p Memory.empty_wf
    exact ⟨_, launchSnapshot_of_read p hx, rfl, rfl, rfl, rfl, rfl, rfl, rfl, rfl, (hs.setHost _).restore hx⟩
  · obtain ⟨r, hr⟩ := launchSnapshot_of_error p he
    cases hr.symm.trans h

end Sys2Proof.Machine
end
